-- ==== Sys2Proof/Word.lean ====
section
/-! DEFINITION. The word types of the machine (00_scope.md R6): a word is 32 bits, a byte 8 bits, a
half the 16 bits of a two-byte operand. -/

namespace Sys2Proof

/-- A 32-bit word: an entry of stack storage, a constant or a local (R5, XLEN = 32). -/
abbrev Word := BitVec 32

/-- An 8-bit byte of the instruction stream or of a byte channel (R6). -/
abbrev Byte := BitVec 8

/-- A 16-bit operand: a branch offset, a constant index or a wide local index (R57). -/
abbrev Half := BitVec 16

end Sys2Proof
end

