-- ==== Sys2Proof/Config.lean ====
section
/-! DEFINITION. The parameters of the machine (00_scope.md R5) as plain data. The values this
hardware takes stand in Sys2Proof/Decode.lean (the opcode map) and Sys2Proof/Machine/Defaults.lean. -/

namespace Sys2Proof

/-- The 22 mnemonics of 30_encoding.md R58, as names of opcodes (not of instructions). -/
inductive Opcode where
  | nop | bipush | ldcW | iload | istore | pop | dup | swap | iadd | isub | iand | iinc
  | ifeq | iflt | ifIcmpeq | goto | ior | wide | in_ | out | err | halt
  deriving DecidableEq, Repr

/-- The 22 opcodes in the order of the table of R58. -/
def Opcode.all : List Opcode :=
  [.nop, .bipush, .ldcW, .iload, .istore, .pop, .dup, .swap, .iadd, .isub, .iand, .iinc,
   .ifeq, .iflt, .ifIcmpeq, .goto, .ior, .wide, .in_, .out, .err, .halt]

/-- The parameter `OPC` (R5, R58): the byte value of each of the 22 opcodes. -/
structure OpcodeMap where
  nop : Byte
  bipush : Byte
  ldcW : Byte
  iload : Byte
  istore : Byte
  pop : Byte
  dup : Byte
  swap : Byte
  iadd : Byte
  isub : Byte
  iand : Byte
  iinc : Byte
  ifeq : Byte
  iflt : Byte
  ifIcmpeq : Byte
  goto : Byte
  ior : Byte
  wide : Byte
  in_ : Byte
  out : Byte
  err : Byte
  halt : Byte
  deriving DecidableEq, Repr

/-- `OPC` applied to an opcode. -/
def OpcodeMap.byteOf (m : OpcodeMap) : Opcode → Byte
  | .nop => m.nop
  | .bipush => m.bipush
  | .ldcW => m.ldcW
  | .iload => m.iload
  | .istore => m.istore
  | .pop => m.pop
  | .dup => m.dup
  | .swap => m.swap
  | .iadd => m.iadd
  | .isub => m.isub
  | .iand => m.iand
  | .iinc => m.iinc
  | .ifeq => m.ifeq
  | .iflt => m.iflt
  | .ifIcmpeq => m.ifIcmpeq
  | .goto => m.goto
  | .ior => m.ior
  | .wide => m.wide
  | .in_ => m.in_
  | .out => m.out
  | .err => m.err
  | .halt => m.halt

/-- The comparison of an opcode byte with the 22 values of `OPC` (R59, R81): the opcode it is, or
none for an unrecognized byte (R60). -/
def OpcodeMap.find (m : OpcodeMap) (b : Byte) : Option Opcode :=
  Opcode.all.find? (fun o => m.byteOf o == b)

/-- "Any value of `OPC` must map the 22 mnemonics to 22 distinct byte values" (R59). -/
abbrev OpcodeMap.distinct (m : OpcodeMap) : Prop :=
  (Opcode.all.map m.byteOf).Nodup

/-- The parameters of R5 that are not part of the image. -/
structure Config where
  /-- `STACK_CAP`, the number of entries of stack storage. -/
  stackCap : Nat
  /-- `LV_RESET`, the value of `lv` from reset on. -/
  lvReset : Nat
  /-- `OPC`, the opcode map. -/
  opc : OpcodeMap
  /-- `EOF_SENTINEL`, the word IN pushes first at end of input. -/
  eofSentinel : Word
  /-- `MAGIC`, the first four bytes of an image. -/
  magic : Word
  deriving DecidableEq, Repr

/-- What R5, R59 and D4 require of the parameters: `STACK_CAP >= 1`, `LV_RESET < STACK_CAP`,
22 distinct opcode bytes. -/
abbrev Config.valid (c : Config) : Prop :=
  1 ≤ c.stackCap ∧ c.lvReset < c.stackCap ∧ c.opc.distinct

end Sys2Proof
end

