-- ==== Sys2Proof/Syntax.lean ====
section
/-! DEFINITION. The instructions: one constructor for each of the 27 rows of spec/opcode_table.json,
with its operand fields as the bytes hold them (30_encoding.md R51, R57). -/

namespace Sys2Proof

/-- An instruction as the decoder reads it, prefix included (R8: a prefix and the instruction it
covers are one instruction of one step). -/
inductive Instr where
  /-- NOP, `F_NONE` (R104). -/
  | nop
  /-- BIPUSH imm8, `F_IMM8` (R100). -/
  | bipush (imm8 : Byte)
  /-- LDC_W cidx, `F_CIDX16` (R140). -/
  | ldcW (cidx : Half)
  /-- ILOAD vidx without prefix, `F_VIDX` (R141). -/
  | iload (vidx : Byte)
  /-- ISTORE vidx without prefix, `F_VIDX` (R142). -/
  | istore (vidx : Byte)
  /-- POP (R102). -/
  | pop
  /-- DUP (R101). -/
  | dup
  /-- SWAP (R103). -/
  | swap
  /-- IADD (R110). -/
  | iadd
  /-- ISUB (R111). -/
  | isub
  /-- IAND (R112). -/
  | iand
  /-- IINC vidx, inc8 without prefix, `F_VIDX_IMM8` (R143). -/
  | iinc (vidx : Byte) (inc8 : Byte)
  /-- IFEQ off, `F_OFF16` (R121). -/
  | ifeq (off : Half)
  /-- IFLT off, `F_OFF16` (R122). -/
  | iflt (off : Half)
  /-- IF_ICMPEQ off, `F_OFF16` (R123). -/
  | ifIcmpeq (off : Half)
  /-- GOTO off, `F_OFF16` (R120). -/
  | goto (off : Half)
  /-- IOR (R113). -/
  | ior
  /-- IN (R163). -/
  | in_
  /-- OUT (R164). -/
  | out
  /-- ERR (R126). -/
  | err
  /-- HALT (R125). -/
  | halt
  /-- WIDE before an instruction whose format it does not change, `F_W_OTHER` (R84, R85). -/
  | wide (covered : Instr)
  /-- WIDE ILOAD vidx, `F_W_VIDX` (R141, R144). -/
  | wideIload (vidx : Half)
  /-- WIDE ISTORE vidx, `F_W_VIDX` (R142, R144). -/
  | wideIstore (vidx : Half)
  /-- WIDE IINC vidx, inc8, `F_W_VIDX_IMM8` (R143, R144): the increment stays 8 bits. -/
  | wideIinc (vidx : Half) (inc8 : Byte)
  /-- WIDE WIDE, the one illegal encoding (R64, R86). -/
  | wideWide
  /-- A byte that is no opcode: a one-byte no-op (R60, R83). -/
  | unrecognized (byte : Byte)
  deriving DecidableEq, Repr

end Sys2Proof
end

