-- ==== Sys2Proof/WellFormed.lean ====
section
/-! DEFINITION. Which terms of `Instr` some bytes stand for, under a given opcode map. -/

namespace Sys2Proof

/-- The length in bytes of an instruction standing alone, and of one covered by `F_W_OTHER`
(30_encoding.md R51): every constructor but `wide`, which has one byte more than what it covers. -/
def Instr.length : Instr → Nat
  | .nop => 1
  | .bipush _ => 2
  | .ldcW _ => 3
  | .iload _ => 2
  | .istore _ => 2
  | .pop => 1
  | .dup => 1
  | .swap => 1
  | .iadd => 1
  | .isub => 1
  | .iand => 1
  | .iinc _ _ => 3
  | .ifeq _ => 3
  | .iflt _ => 3
  | .ifIcmpeq _ => 3
  | .goto _ => 3
  | .ior => 1
  | .in_ => 1
  | .out => 1
  | .err => 1
  | .halt => 1
  | .wide c => 1 + c.length
  | .wideIload _ => 4
  | .wideIstore _ => 4
  | .wideIinc _ _ => 5
  | .wideWide => 2
  | .unrecognized _ => 1

/-- Whether a term is well formed as an instruction without prefix, which is also what `F_W_OTHER`
may cover but for the three local instructions: an unrecognized byte is no byte of the opcode map
(R60). -/
def Instr.wfAlone (opc : OpcodeMap) : Instr → Bool
  | .nop => true
  | .bipush _ => true
  | .ldcW _ => true
  | .iload _ => true
  | .istore _ => true
  | .pop => true
  | .dup => true
  | .swap => true
  | .iadd => true
  | .isub => true
  | .iand => true
  | .iinc _ _ => true
  | .ifeq _ => true
  | .iflt _ => true
  | .ifIcmpeq _ => true
  | .goto _ => true
  | .ior => true
  | .in_ => true
  | .out => true
  | .err => true
  | .halt => true
  | .wide _ => false
  | .wideIload _ => false
  | .wideIstore _ => false
  | .wideIinc _ _ => false
  | .wideWide => false
  | .unrecognized b => (opc.find b).isNone

/-- Whether WIDE leaves the format of the instruction as it is (R61, R85): everything but the three
local instructions, which have prefixed forms of their own, and a second prefix. -/
def Instr.keepsFormat : Instr → Bool
  | .nop => true
  | .bipush _ => true
  | .ldcW _ => true
  | .iload _ => false
  | .istore _ => false
  | .pop => true
  | .dup => true
  | .swap => true
  | .iadd => true
  | .isub => true
  | .iand => true
  | .iinc _ _ => false
  | .ifeq _ => true
  | .iflt _ => true
  | .ifIcmpeq _ => true
  | .goto _ => true
  | .ior => true
  | .in_ => true
  | .out => true
  | .err => true
  | .halt => true
  | .wide _ => false
  | .wideIload _ => false
  | .wideIstore _ => false
  | .wideIinc _ _ => false
  | .wideWide => false
  | .unrecognized _ => true

/-- Whether a term is an instruction that some bytes stand for under the opcode map (R51, R61). -/
def Instr.wf (opc : OpcodeMap) : Instr → Bool
  | .wide c => c.keepsFormat && c.wfAlone opc
  | .wideIload _ => true
  | .wideIstore _ => true
  | .wideIinc _ _ => true
  | .wideWide => true
  | .nop => true
  | .bipush _ => true
  | .ldcW _ => true
  | .iload _ => true
  | .istore _ => true
  | .pop => true
  | .dup => true
  | .swap => true
  | .iadd => true
  | .isub => true
  | .iand => true
  | .iinc _ _ => true
  | .ifeq _ => true
  | .iflt _ => true
  | .ifIcmpeq _ => true
  | .goto _ => true
  | .ior => true
  | .in_ => true
  | .out => true
  | .err => true
  | .halt => true
  | .unrecognized b => (opc.find b).isNone

end Sys2Proof
end

