-- ==== Sys2Proof/Decode.lean ====
section
/-! DEFINITION. The decoder (30_encoding.md, 41_decode_dispatch.md R80, R81), total on any bytes, and
the encoder written from the same formats (R51). Both take the opcode map as an argument. -/

namespace Sys2Proof

/-- The default value of `OPC`: the column "default byte" of R58. PRESUMED (log 2): the spec itself
marks these numbers as general knowledge, not the source's. -/
def defaultOpc : OpcodeMap where
  nop := 0x00
  bipush := 0x10
  ldcW := 0x13
  iload := 0x15
  istore := 0x36
  pop := 0x57
  dup := 0x59
  swap := 0x5F
  iadd := 0x60
  isub := 0x64
  iand := 0x7E
  iinc := 0x84
  ifeq := 0x99
  iflt := 0x9B
  ifIcmpeq := 0x9F
  goto := 0xA7
  ior := 0xB0
  wide := 0xC4
  in_ := 0xFC
  out := 0xFD
  err := 0xFE
  halt := 0xFF

/-- Two bytes as a 16-bit operand, the first the more significant (20_memory.md R34). -/
def half (hi lo : Byte) : Half := hi ++ lo

/-- The byte of a 16-bit operand that stands first in the stream (R34). -/
def Half.hi (h : Half) : Byte := h.extractLsb' 8 8

/-- The byte of a 16-bit operand that stands second in the stream (R34). -/
def Half.lo (h : Half) : Byte := h.extractLsb' 0 8

/-- What the decoder answers on a list of bytes. -/
inductive Decoded where
  /-- The instruction at the front, and the bytes after it. -/
  | ok (i : Instr) (rest : List Byte)
  /-- The bytes end inside the instruction. `off` is the offset, from the first byte of the
  instruction, of the first byte of the `MemRead` that cannot be satisfied (R36, R175). -/
  | truncated (off : Nat)
  deriving DecidableEq, Repr

/-- A one-byte `MemRead` at offset `off` of the instruction. -/
def readByte (bytes : List Byte) (off : Nat) (k : Byte → List Byte → Decoded) : Decoded :=
  match bytes with
  | b :: rest => k b rest
  | [] => .truncated off

/-- A two-byte big-endian `MemRead` at offset `off` of the instruction (R34): one read, which fails
as a whole at its first byte (R36). -/
def readHalf (bytes : List Byte) (off : Nat) (k : Half → List Byte → Decoded) : Decoded :=
  match bytes with
  | hi :: lo :: rest => k (half hi lo) rest
  | _ => .truncated off

/-- The opcode byte `op` and the operands after it, which start at offset `off`. `isWide` is the
width-extension flag as an argument of the decoder, as R15 allows: it widens the index of the three
local instructions (R144), and the prefix stays visible in the term of every other one (R85). A
prefix byte met here stands under a prefix already (R86). -/
def decodeFrom (opc : OpcodeMap) (isWide : Bool) (op : Byte) (rest : List Byte) (off : Nat) : Decoded :=
  let plain (i : Instr) : Instr := if isWide then .wide i else i
  match opc.find op with
  | none => .ok (plain (.unrecognized op)) rest
  | some .wide => .ok .wideWide rest
  | some .iload =>
    if isWide then readHalf rest off fun v r => .ok (.wideIload v) r
    else readByte rest off fun v r => .ok (.iload v) r
  | some .istore =>
    if isWide then readHalf rest off fun v r => .ok (.wideIstore v) r
    else readByte rest off fun v r => .ok (.istore v) r
  | some .iinc =>
    if isWide then readHalf rest off fun v r => readByte r (off + 2) fun c r' => .ok (.wideIinc v c) r'
    else readByte rest off fun v r => readByte r (off + 1) fun c r' => .ok (.iinc v c) r'
  | some .bipush => readByte rest off fun b r => .ok (plain (.bipush b)) r
  | some .ldcW => readHalf rest off fun x r => .ok (plain (.ldcW x)) r
  | some .ifeq => readHalf rest off fun x r => .ok (plain (.ifeq x)) r
  | some .iflt => readHalf rest off fun x r => .ok (plain (.iflt x)) r
  | some .ifIcmpeq => readHalf rest off fun x r => .ok (plain (.ifIcmpeq x)) r
  | some .goto => readHalf rest off fun x r => .ok (plain (.goto x)) r
  | some .nop => .ok (plain .nop) rest
  | some .pop => .ok (plain .pop) rest
  | some .dup => .ok (plain .dup) rest
  | some .swap => .ok (plain .swap) rest
  | some .iadd => .ok (plain .iadd) rest
  | some .isub => .ok (plain .isub) rest
  | some .iand => .ok (plain .iand) rest
  | some .ior => .ok (plain .ior) rest
  | some .in_ => .ok (plain .in_) rest
  | some .out => .ok (plain .out) rest
  | some .err => .ok (plain .err) rest
  | some .halt => .ok (plain .halt) rest

/-- The instruction at the front of the bytes (R61, R80): at most two bytes say what it is. -/
def decode (opc : OpcodeMap) (bytes : List Byte) : Decoded :=
  readByte bytes 0 fun op rest =>
    match opc.find op with
    | some .wide => readByte rest 1 fun op2 rest2 => decodeFrom opc true op2 rest2 2
    | _ => decodeFrom opc false op rest 1

/-- The bytes of an instruction, from the formats of R51. -/
def encode (opc : OpcodeMap) : Instr → List Byte
  | .nop => [opc.nop]
  | .bipush b => [opc.bipush, b]
  | .ldcW x => [opc.ldcW, Half.hi x, Half.lo x]
  | .iload v => [opc.iload, v]
  | .istore v => [opc.istore, v]
  | .pop => [opc.pop]
  | .dup => [opc.dup]
  | .swap => [opc.swap]
  | .iadd => [opc.iadd]
  | .isub => [opc.isub]
  | .iand => [opc.iand]
  | .iinc v c => [opc.iinc, v, c]
  | .ifeq x => [opc.ifeq, Half.hi x, Half.lo x]
  | .iflt x => [opc.iflt, Half.hi x, Half.lo x]
  | .ifIcmpeq x => [opc.ifIcmpeq, Half.hi x, Half.lo x]
  | .goto x => [opc.goto, Half.hi x, Half.lo x]
  | .ior => [opc.ior]
  | .in_ => [opc.in_]
  | .out => [opc.out]
  | .err => [opc.err]
  | .halt => [opc.halt]
  | .wide c => opc.wide :: encode opc c
  | .wideIload v => [opc.wide, opc.iload, Half.hi v, Half.lo v]
  | .wideIstore v => [opc.wide, opc.istore, Half.hi v, Half.lo v]
  | .wideIinc v c => [opc.wide, opc.iinc, Half.hi v, Half.lo v, c]
  | .wideWide => [opc.wide, opc.wide]
  | .unrecognized b => [b]

/-- The length in bytes of the longest instruction (R50). -/
def maxLength : Nat := 5

/-- Byte `k` of a number whose bits count on from byte to byte, byte 0 the least significant. -/
def numberByte (w k : Nat) : Byte := BitVec.ofNat 8 (w / 256 ^ k)

/-- The bytes of an instruction whose bits are the number `w`, as spec/opcode_table.json numbers
them, filled up with zeros to the longest instruction. Byte 0 is bits 7..0 and each later byte
counts on from it, but for the four rows with a two-byte match (WIDE ILOAD 0xC415 and so on), whose
match the table writes as ONE number with byte 0 the more significant. DESIGN CHOICE (log 15). -/
def tableBytes (nbits w : Nat) : List Byte :=
  let low := numberByte w 0
  let high := numberByte w 1
  let twoByteMatch := 16 ≤ nbits && high == defaultOpc.wide &&
    (low == defaultOpc.iload || low == defaultOpc.istore || low == defaultOpc.iinc
      || low == defaultOpc.wide)
  (if twoByteMatch then [high, low] else [low, high])
    ++ [numberByte w 2, numberByte w 3, numberByte w 4]

/-- The instruction the decoder reads from the word of a row of spec/opcode_table.json, under the
default opcode map. -/
def decodeTableWord (nbits w : Nat) : Option Instr :=
  match decode defaultOpc (tableBytes nbits (w % 2 ^ nbits)) with
  | .ok i _ => some i
  | .truncated _ => none

end Sys2Proof
end

