-- ==== Sys2Proof/Machine/Defaults.lean ====
section
/-! DEFINITION. The values this hardware takes for the parameters of 00_scope.md R5, and what an
entry of stack storage that nothing has written reads as. -/

namespace Sys2Proof.Machine

/-- `STACK_CAP` = 1000 (R5, D4; log 3). -/
def defaultStackCap : Nat := 1000

/-- `LV_RESET`: OPEN in the spec (R5, D5). DESIGN CHOICE (log 4): 0. -/
def defaultLvReset : Nat := 0

/-- The default of `EOF_SENTINEL` (R5, R163). PRESUMED (log 16): the spec marks it as general
knowledge. -/
def defaultEofSentinel : Word := 0xFFFFFFFF

/-- The default of `MAGIC` (R5, R205). PRESUMED (log 17): the spec marks it as general knowledge. -/
def defaultMagic : Word := 0x1DEADFAD

/-- The parameters this hardware takes. -/
def defaultConfig : Config where
  stackCap := defaultStackCap
  lvReset := defaultLvReset
  opc := defaultOpc
  eofSentinel := defaultEofSentinel
  magic := defaultMagic

/-- What an entry of stack storage reads as where the storage lists no value for it. The spec leaves
the contents at reset open (`STK_INIT`, R13, D7). DESIGN CHOICE (log 5): 0. A statement about every
state covers every initial contents, because the storage may list any values. -/
def unlistedEntry : Word := 0

end Sys2Proof.Machine
end

