-- ==== Sys2Proof/Machine/State.lean ====
section
/-! DEFINITION. The state of the machine (10_state.md R10 to R17), as plain data, and reset (R23,
70_reset_and_hazards.md R200). -/

namespace Sys2Proof.Machine

/-- The diagnostics of 60_exceptions.md R172. -/
inductive Diagnostic where
  | ovf | unf | emp | err
  deriving DecidableEq, Repr

/-- The fault causes of 60_exceptions.md R175. -/
inductive FaultCause where
  | fetchOutOfRange | nestedPrefix | constIndexOutOfRange | localIndexOutOfRange
  | branchTargetOutOfRange
  deriving DecidableEq, Repr

/-- The contents of the fault register when it is not `none` (R17): the cause, the `pc` at the start
of the faulting step, the offending index, address or target. -/
structure FaultRecord where
  cause : FaultCause
  at_ : Nat
  info : Int
  deriving DecidableEq, Repr

/-- Stack storage: index and word pairs, the indices strictly rising, no word equal to what an
unlisted index reads as (log 19). -/
abbrev Memory := List (Nat × Word)

/-- The image as the block holds it: fixed at reset, "immutable after load" (R10, R31, R32).
`TEXT_SIZE` and `CP_COUNT` are the lengths. -/
structure Image where
  text : List Byte
  cp : List Word
  deriving DecidableEq, Repr

/-- The whole state: the registers of R11 to R17, the three memories, the parameters (log 1), the
event list of the last step (log 12) and the environment's two byte channels (log 7). -/
structure State where
  /-- The parameters of R5; fixed. -/
  cfg : Config
  /-- The instruction stream; fixed from reset on (R31). -/
  text : List Byte
  /-- The constant pool; fixed from reset on (R32). -/
  cp : List Word
  /-- The program counter (R11). -/
  pc : Nat
  /-- The stack pointer, -1 when empty (R12). -/
  sp : Int
  /-- The stack storage (R13, R33). -/
  stk : Memory
  /-- The local-variable base (R14). -/
  lv : Nat
  /-- The width-extension flag (R15). -/
  wide : Bool
  /-- The sticky diagnostic register: bit 0 OVF, 1 UNF, 2 EMP, 3 ERR (R16). -/
  diag : BitVec 4
  /-- The fault register (R17). -/
  fault : Option FaultRecord
  /-- The event list of the last step (R16, R171). -/
  events : List Diagnostic
  /-- Input bytes that have arrived and not been consumed, oldest first (R161). -/
  input : List Byte
  /-- Whether the input source has signalled its end (R161). -/
  inputClosed : Bool
  /-- Output bytes written, oldest first (R162). -/
  output : List Byte
  deriving DecidableEq, Repr

/-- Why a step has no next state although the machine has neither halted nor faulted. The spec's own
faults (R175) are no such stop: they are NEXT states with the fault register written (log 9). -/
inductive Fault where
  /-- Raised by IN, alone or under a prefix, while the input source has no answer: the step is held,
  no state changes, and only a move of the environment lifts it (R161, U16; log 8). Safe. -/
  | heldForInput
  deriving DecidableEq, Repr

/-- Why the model gives a step no meaning. -/
inductive Refusal where
  /-- An instruction whose meaning has not been written; no arm of `exec` is one. Safe. -/
  | notModelled (mnemonic : String)
  /-- Raised by `step` in a faulted state: "`Step` is not enabled" (R177, U18; log 11). Safe. -/
  | stepWhileFaulted
  /-- Raised by the meaning of WIDE for a term that no bytes decode to: WIDE over a local
  instruction's narrow form or over another prefixed form (log 20). Safe. -/
  | illFormedTerm
  deriving DecidableEq, Repr

/-- Reset (R23, R200) with everything that the spec leaves to the image (`img`), to the parameters
(`cfg`), to the environment (`input`, `closed`) or open (`stk`, the initial stack storage: any). -/
def State.resetWith (cfg : Config) (img : Image) (stk : Memory) (input : List Byte) (closed : Bool) :
    State where
  cfg := cfg
  text := img.text
  cp := img.cp
  pc := 0
  sp := -1
  stk := stk
  lv := cfg.lvReset
  wide := false
  diag := 0
  fault := none
  events := []
  input := input
  inputClosed := closed
  output := []

/-- The machine right after reset, with the default parameters, an empty image (log 6), storage that
lists nothing (log 5) and an input source that is empty and closed (log 7). -/
def State.reset : State :=
  State.resetWith defaultConfig ⟨[], []⟩ [] [] true

end Sys2Proof.Machine
end

