-- ==== Sys2Proof/Machine/Flags.lean ====
section
/-! DEFINITION. The machine has no condition codes (10_state.md R19). Its one status register that
instructions write is `diag` (R16), through `report` (60_exceptions.md R171); the codes of
diagnostics and faults stand here too. -/

namespace Sys2Proof.Machine

/-- The code of a diagnostic, which is its bit number in `diag` (R16, R172). -/
def Diagnostic.code : Diagnostic → Nat
  | .ovf => 0
  | .unf => 1
  | .emp => 2
  | .err => 3

/-- The `diag` register with only the bit of `d` set. -/
def Diagnostic.mask (d : Diagnostic) : BitVec 4 := 1#4 <<< d.code

/-- The code of a fault cause (R175). -/
def FaultCause.code : FaultCause → Nat
  | .fetchOutOfRange => 1
  | .nestedPrefix => 2
  | .constIndexOutOfRange => 3
  | .localIndexOutOfRange => 4
  | .branchTargetOutOfRange => 5

namespace State

/-- Whether the sticky bit of a diagnostic is set (R16). -/
def reported (s : State) (d : Diagnostic) : Bool := s.diag.getLsbD d.code

/-- `report(d)`: sets the sticky bit and appends to the event list of the step (R171). -/
def report (d : Diagnostic) (s : State) : State :=
  { s with diag := s.diag ||| d.mask, events := s.events ++ [d] }

/-- The start of a step: its event list is empty (R171). -/
def beginStep (s : State) : State := { s with events := [] }

end State

end Sys2Proof.Machine
end

