-- ==== Sys2Proof/Machine/Ops.lean ====
section
/-! DEFINITION. The shared operations: stack storage, the primitives push, pop and peek
(40_stack_primitives.md), the program counter, the byte channels (46_io.md), the prefix's flag
(41_decode_dispatch.md R80) and raising a fault (60_exceptions.md R176). -/

namespace Sys2Proof.Machine

namespace Memory

/-- The word at an index: the listed one, else what an unlisted index reads as. -/
def read : Memory → Nat → Word
  | [], _ => unlistedEntry
  | (k, v) :: rest, i => if k = i then v else read rest i

/-- The listing without an index. -/
def erase (m : Memory) (i : Nat) : Memory := m.filter (fun c => c.1 != i)

/-- Lists a word before the first greater index. -/
def insert : Memory → Nat → Word → Memory
  | [], i, v => [(i, v)]
  | (k, w) :: rest, i, v => if i < k then (i, v) :: (k, w) :: rest else (k, w) :: insert rest i v

/-- Stores a word at an index, keeping the canonical form: the word an unlisted index reads as is
not listed. -/
def write (m : Memory) (i : Nat) (v : Word) : Memory :=
  if v = unlistedEntry then erase m i else insert (erase m i) i v

/-- The canonical form: strictly rising indices, no listed word equal to what an unlisted index
reads as. -/
def wf : Memory → Bool
  | [] => true
  | (k, v) :: rest => v != unlistedEntry && rest.all (fun c => decide (k < c.1)) && wf rest

/-- Every listed index is one of the storage: below `STACK_CAP` (R13). -/
def within (cap : Nat) (m : Memory) : Bool := m.all (fun c => decide (c.1 < cap))

end Memory

namespace State

/-- `TEXT_SIZE` (R5). -/
def textSize (s : State) : Nat := s.text.length

/-- `CP_COUNT` (R5). -/
def cpCount (s : State) : Nat := s.cp.length

/-- `stk[i]` (R7, R13). -/
def entry (s : State) (i : Nat) : Word := Memory.read s.stk i

/-- `stk[i] <- v` (R7, R13). -/
def setEntry (i : Nat) (v : Word) (s : State) : State := { s with stk := Memory.write s.stk i v }

/-- `pc <- t` (R7, R11). -/
def setPc (t : Nat) (s : State) : State := { s with pc := t }

/-- `pc <- pc + n` (R82). -/
def advance (n : Nat) (s : State) : State := { s with pc := s.pc + n }

/-- `sp <- v`, for push and pop only (R12). -/
def setSp (v : Int) (s : State) : State := { s with sp := v }

/-- `wide <- b` (R15, R80). -/
def setWide (b : Bool) (s : State) : State := { s with wide := b }

/-- `push(v)` (R70): on a full stack the word is dropped and OVF reported. -/
def push (v : Word) (s : State) : State :=
  if s.sp = s.cfg.stackCap - 1 then s.report .ovf
  else (s.setSp (s.sp + 1)).setEntry (s.sp + 1).toNat v

/-- `pop()` (R71): the word and the state after it; on an empty stack a zero, and UNF reported. The
vacated entry keeps its word. -/
def pop (s : State) : Word × State :=
  if s.sp = -1 then (0, s.report .unf) else (s.entry s.sp.toNat, s.setSp (s.sp - 1))

/-- `peek()` (R72): as `pop` with nothing removed; on an empty stack EMP is reported. -/
def peek (s : State) : Word × State :=
  if s.sp = -1 then (0, s.report .emp) else (s.entry s.sp.toNat, s)

/-- `OutWrite(b)` (R160, R162). -/
def outWrite (b : Byte) (s : State) : State := { s with output := s.output ++ [b] }

/-- The unconsumed input becomes `l`. -/
def setInput (l : List Byte) (s : State) : State := { s with input := l }

end State

/-- What the input source answers (R160). -/
inductive InAnswer where
  | byte (c : Byte)
  | endMarker
  deriving DecidableEq, Repr

/-- `InRead()` (R160, R161): the next byte, which is consumed; else the end-marker once the source is
closed; else no answer, and the step is held. -/
def State.inRead (s : State) : Option (InAnswer × State) :=
  match s.input with
  | c :: rest => some (.byte c, s.setInput rest)
  | [] => if s.inputClosed then some (.endMarker, s) else none

/-- A move of the environment between steps: a byte arrives at an open source (R161). -/
def State.byteArrives (c : Byte) (s : State) : State :=
  if s.inputClosed then s else s.setInput (s.input ++ [c])

/-- A move of the environment between steps: the source is closed (R161). -/
def State.closeInput (s : State) : State := { s with inputClosed := true }

/-- How the pseudocode of an instruction ends. -/
inductive Result where
  /-- It ran to its end. -/
  | done (s : State)
  /-- `raise Fault(cause, info)`. -/
  | raised (cause : FaultCause) (info : Int)
  /-- It waits in `InRead()`. -/
  | held
  /-- The term is no instruction (log 20). -/
  | illFormed

/-- The register writes of `raise Fault(cause, info)` (R176), on the state at the start of the step:
everything is as it was then, the event list is discarded, and the fault register is written with
the `pc` of the start of the step. -/
def State.raiseFault (cause : FaultCause) (info : Int) (s : State) : State :=
  { s with fault := some ⟨cause, s.pc, info⟩, events := [] }

/-- The outcome of the instruction whose pseudocode, begun in `s`, ended so. A raised fault abandons
what the pseudocode did and starts again from `s` (R176; log 9). -/
def finish (s : State) (r : Result) : Host.Outcome State Fault Refusal :=
  match r with
  | .done t => .next t
  | .raised cause info => .next (s.raiseFault cause info)
  | .held => .fault .heldForInput
  | .illFormed => .refused .illFormedTerm

/-- `body` as the instruction covered by WIDE (R80, R84): `pc` goes past the prefix byte and `wide`
is 1 while `body` runs, and 0 after it. -/
def underWide (body : State → Result) (s : State) : Result :=
  match body ((s.setWide true).advance 1) with
  | .done t => .done (t.setWide false)
  | .raised cause info => .raised cause info
  | .held => .held
  | .illFormed => .illFormed

end Sys2Proof.Machine
end

