-- ==== Sys2Proof/Machine/Operands.lean ====
section
/-! DEFINITION. The operand forms (30_encoding.md R57, 45_locals_const.md R144, R145, R147), the
value computations of 43_arith_logic.md R110 to R114, and the branch rule (44_control.md R124). -/

namespace Sys2Proof.Machine

/-- `sext_32` of a byte: the value of `imm8` and of `inc8` (R6, R57). -/
def sext8 (b : Byte) : Word := b.signExtend 32

/-- `zext_32` of a byte: what IN pushes (R6, R163). -/
def zext8 (b : Byte) : Word := b.setWidth 32

/-- `v[7:0]`. -/
def lowByte (v : Word) : Byte := v.setWidth 8

/-- The narrowing of ISTORE: `sext_32(v[7:0])` (R142). -/
def narrow (v : Word) : Word := sext8 (lowByte v)

/-- The word of ISUB (R111): both operands narrowed to signed bytes, the difference in integers, the
result not narrowed again. -/
def narrowSub (a b : Word) : Word := BitVec.ofInt 32 ((lowByte a).toInt - (lowByte b).toInt)

/-- `p + off` in unbounded integers, `p` the index of the branch's own opcode byte (R124). -/
def branchTarget (p : Nat) (off : Half) : Int := p + off.toInt

/-- The number of the local slot: `lv + vidx` in unbounded integers (R145, R147). -/
def localSlot (s : State) (vidx : Nat) : Nat := s.lv + vidx

/-- `Taken(off)` (R124) for the branch whose opcode byte is at `pc`: a target that is no index of a
byte of the stream is a fault. -/
def takeBranch (off : Half) (s : State) : Result :=
  let t := branchTarget s.pc off
  if t < 0 ∨ s.textSize ≤ t then .raised .branchTargetOutOfRange t else .done (s.setPc t.toNat)

/-- A conditional branch of three bytes whose opcode byte is at `pc`: taken, or past its operand
(R82, R124). -/
def branchIf (c : Bool) (off : Half) (s : State) : Result :=
  if c then takeBranch off s else .done (s.advance 3)

/-- Pops the right operand, pops the left one, pushes one word (43_arith_logic.md), one byte long. -/
def binaryOp (f : Word → Word → Word) (s : State) : Result :=
  let b := s.pop
  let a := b.2.pop
  .done ((a.2.push (f a.1 b.1)).advance 1)

/-- Runs `k` on the number of the local slot if it is one of the storage (R145). -/
def withSlot (vidx : Nat) (s : State) (k : Nat → Result) : Result :=
  if s.cfg.stackCap ≤ localSlot s vidx then .raised .localIndexOutOfRange (localSlot s vidx)
  else k (localSlot s vidx)

/-- ILOAD with its opcode byte at `pc`, `len` bytes long from there (R141). -/
def loadLocal (vidx len : Nat) (s : State) : Result :=
  withSlot vidx s fun e => .done ((s.push (s.entry e)).advance len)

/-- ISTORE with its opcode byte at `pc`, `len` bytes long from there (R142): the bound is checked
before the pop, the pop comes before the store. -/
def storeLocal (vidx len : Nat) (s : State) : Result :=
  withSlot vidx s fun e => .done ((s.pop.2.setEntry e (narrow s.pop.1)).advance len)

/-- IINC with its opcode byte at `pc`, `len` bytes long from there (R143). -/
def incLocal (vidx : Nat) (inc8 : Byte) (len : Nat) (s : State) : Result :=
  withSlot vidx s fun e => .done ((s.setEntry e (s.entry e + sext8 inc8)).advance len)

end Sys2Proof.Machine
end

