-- ==== Sys2Proof/Machine/Arith.lean ====
section
/-! DEFINITION. Arithmetic and logic, 43_arith_logic.md. -/

namespace Sys2Proof.Machine

/-- IADD (R110): modulo 2^32. -/
def iaddBody (s : State) : Result := binaryOp (fun a b => a + b) s

/-- IADD (R110). -/
def execIadd (s : State) : Host.Outcome State Fault Refusal := finish s (iaddBody s)

/-- ISUB (R111): the narrowing subtract. -/
def isubBody (s : State) : Result := binaryOp narrowSub s

/-- ISUB (R111). -/
def execIsub (s : State) : Host.Outcome State Fault Refusal := finish s (isubBody s)

/-- IAND (R112). -/
def iandBody (s : State) : Result := binaryOp (fun a b => a &&& b) s

/-- IAND (R112). -/
def execIand (s : State) : Host.Outcome State Fault Refusal := finish s (iandBody s)

/-- IOR (R113). -/
def iorBody (s : State) : Result := binaryOp (fun a b => a ||| b) s

/-- IOR (R113). -/
def execIor (s : State) : Host.Outcome State Fault Refusal := finish s (iorBody s)

end Sys2Proof.Machine
end

