-- ==== Sys2Proof/Machine/Control.lean ====
section
/-! DEFINITION. Control transfer, halt and error, 44_control.md. -/

namespace Sys2Proof.Machine

/-- GOTO (R120). -/
def gotoBody (off : Half) (s : State) : Result := takeBranch off s

/-- GOTO (R120). -/
def execGoto (off : Half) (s : State) : Host.Outcome State Fault Refusal :=
  finish s (gotoBody off s)

/-- IFEQ (R121). -/
def ifeqBody (off : Half) (s : State) : Result := branchIf (s.pop.1 == 0) off s.pop.2

/-- IFEQ (R121). -/
def execIfeq (off : Half) (s : State) : Host.Outcome State Fault Refusal :=
  finish s (ifeqBody off s)

/-- IFLT (R122): bit 31 of the popped word. -/
def ifltBody (off : Half) (s : State) : Result := branchIf s.pop.1.msb off s.pop.2

/-- IFLT (R122). -/
def execIflt (off : Half) (s : State) : Host.Outcome State Fault Refusal :=
  finish s (ifltBody off s)

/-- IF_ICMPEQ (R123): all 32 bits compared. -/
def ifIcmpeqBody (off : Half) (s : State) : Result :=
  let b := s.pop
  let a := b.2.pop
  branchIf (a.1 == b.1) off a.2

/-- IF_ICMPEQ (R123). -/
def execIfIcmpeq (off : Half) (s : State) : Host.Outcome State Fault Refusal :=
  finish s (ifIcmpeqBody off s)

/-- HALT (R125): `pc <- TEXT_SIZE`. -/
def haltBody (s : State) : Result := .done (s.setPc s.textSize)

/-- HALT (R125). -/
def execHalt (s : State) : Host.Outcome State Fault Refusal := finish s (haltBody s)

/-- ERR (R126): reports ERR, then `pc <- TEXT_SIZE`. -/
def errBody (s : State) : Result := .done ((s.report .err).setPc s.textSize)

/-- ERR (R126). -/
def execErr (s : State) : Host.Outcome State Fault Refusal := finish s (errBody s)

end Sys2Proof.Machine
end

