-- ==== Sys2Proof/Machine/InOut.lean ====
section
/-! DEFINITION. Input and output, 46_io.md. -/

namespace Sys2Proof.Machine

/-- IN (R163): one word for a byte, the sentinel and a companion zero at end of input; held while
the source has no answer (R161). -/
def inBody (s : State) : Result :=
  match s.inRead with
  | some (.byte c, t) => .done ((t.push (zext8 c)).advance 1)
  | some (.endMarker, t) => .done (((t.push t.cfg.eofSentinel).push 0).advance 1)
  | none => .held

/-- IN (R163). -/
def execIn (s : State) : Host.Outcome State Fault Refusal := finish s (inBody s)

/-- OUT (R164): the low byte of the popped word. -/
def outBody (s : State) : Result := .done ((s.pop.2.outWrite (lowByte s.pop.1)).advance 1)

/-- OUT (R164). -/
def execOut (s : State) : Host.Outcome State Fault Refusal := finish s (outBody s)

end Sys2Proof.Machine
end

