-- ==== Sys2Proof/Machine/Locals.lean ====
section
/-! DEFINITION. Constant load and local variables, 45_locals_const.md, with the WIDE forms of the
three local instructions (R144). -/

namespace Sys2Proof.Machine

/-- LDC_W (R140): the bound is checked before the push. -/
def ldcWBody (cidx : Half) (s : State) : Result :=
  match s.cp[cidx.toNat]? with
  | some w => .done ((s.push w).advance 3)
  | none => .raised .constIndexOutOfRange cidx.toNat

/-- LDC_W (R140). -/
def execLdcW (cidx : Half) (s : State) : Host.Outcome State Fault Refusal :=
  finish s (ldcWBody cidx s)

/-- ILOAD (R141). -/
def execIload (vidx : Byte) (s : State) : Host.Outcome State Fault Refusal :=
  finish s (loadLocal vidx.toNat 2 s)

/-- ISTORE (R142). -/
def execIstore (vidx : Byte) (s : State) : Host.Outcome State Fault Refusal :=
  finish s (storeLocal vidx.toNat 2 s)

/-- IINC (R143). -/
def execIinc (vidx inc8 : Byte) (s : State) : Host.Outcome State Fault Refusal :=
  finish s (incLocal vidx.toNat inc8 3 s)

/-- WIDE ILOAD (R141, R144): three bytes after the prefix byte. -/
def execWideIload (vidx : Half) (s : State) : Host.Outcome State Fault Refusal :=
  finish s (underWide (loadLocal vidx.toNat 3) s)

/-- WIDE ISTORE (R142, R144): three bytes after the prefix byte. -/
def execWideIstore (vidx : Half) (s : State) : Host.Outcome State Fault Refusal :=
  finish s (underWide (storeLocal vidx.toNat 3) s)

/-- WIDE IINC (R143, R144): four bytes after the prefix byte, the increment still one byte. -/
def execWideIinc (vidx : Half) (inc8 : Byte) (s : State) : Host.Outcome State Fault Refusal :=
  finish s (underWide (incLocal vidx.toNat inc8 4) s)

end Sys2Proof.Machine
end

