-- ==== Sys2Proof/Machine/Stack.lean ====
section
/-! DEFINITION. The stack instructions of 42_stack_ops.md. A `…Body` is the pseudocode of the rule on
a state whose `pc` is the index of the instruction's own opcode byte, so that WIDE can cover it
(41_decode_dispatch.md R85); the `exec…` is the instruction without prefix. -/

namespace Sys2Proof.Machine

/-- NOP (R104). -/
def nopBody (s : State) : Result := .done (s.advance 1)

/-- NOP (R104). -/
def execNop (s : State) : Host.Outcome State Fault Refusal := finish s (nopBody s)

/-- BIPUSH (R100). -/
def bipushBody (imm8 : Byte) (s : State) : Result := .done ((s.push (sext8 imm8)).advance 2)

/-- BIPUSH (R100). -/
def execBipush (imm8 : Byte) (s : State) : Host.Outcome State Fault Refusal :=
  finish s (bipushBody imm8 s)

/-- DUP (R101): `push(peek())`. -/
def dupBody (s : State) : Result := .done ((s.peek.2.push s.peek.1).advance 1)

/-- DUP (R101). -/
def execDup (s : State) : Host.Outcome State Fault Refusal := finish s (dupBody s)

/-- POP (R102). -/
def popBody (s : State) : Result := .done (s.pop.2.advance 1)

/-- POP (R102). -/
def execPop (s : State) : Host.Outcome State Fault Refusal := finish s (popBody s)

/-- SWAP (R103): pop, pop, push, push. -/
def swapBody (s : State) : Result :=
  let b := s.pop
  let a := b.2.pop
  .done (((a.2.push b.1).push a.1).advance 1)

/-- SWAP (R103). -/
def execSwap (s : State) : Host.Outcome State Fault Refusal := finish s (swapBody s)

end Sys2Proof.Machine
end

