-- ==== Sys2Proof/Machine/Prefix.lean ====
section
/-! DEFINITION. The unrecognized byte and the WIDE prefix, 41_decode_dispatch.md R83 to R86. -/

namespace Sys2Proof.Machine

/-- An unrecognized opcode byte (R83): nothing but the advance. -/
def unrecognizedBody (s : State) : Result := .done (s.advance 1)

/-- An unrecognized opcode byte (R83), whichever it is. -/
def execUnrecognized (_byte : Byte) (s : State) : Host.Outcome State Fault Refusal :=
  finish s (unrecognizedBody s)

/-- `Exec` (R81) for an instruction that WIDE covers without changing its format (R85). The narrow
forms of the local instructions and the prefixed forms are no such instruction (log 20). -/
def coveredBody (c : Instr) (s : State) : Result :=
  match c with
  | .nop => nopBody s
  | .bipush imm8 => bipushBody imm8 s
  | .ldcW cidx => ldcWBody cidx s
  | .iload _ => .illFormed
  | .istore _ => .illFormed
  | .pop => popBody s
  | .dup => dupBody s
  | .swap => swapBody s
  | .iadd => iaddBody s
  | .isub => isubBody s
  | .iand => iandBody s
  | .iinc _ _ => .illFormed
  | .ifeq off => ifeqBody off s
  | .iflt off => ifltBody off s
  | .ifIcmpeq off => ifIcmpeqBody off s
  | .goto off => gotoBody off s
  | .ior => iorBody s
  | .in_ => inBody s
  | .out => outBody s
  | .err => errBody s
  | .halt => haltBody s
  | .wide _ => .illFormed
  | .wideIload _ => .illFormed
  | .wideIstore _ => .illFormed
  | .wideIinc _ _ => .illFormed
  | .wideWide => .illFormed
  | .unrecognized _ => unrecognizedBody s

/-- WIDE before an instruction whose format it does not change (R84, R85): everything stated
relative to the covered opcode byte counts from `p0 + 1`. -/
def execWide (covered : Instr) (s : State) : Host.Outcome State Fault Refusal :=
  finish s (underWide (coveredBody covered) s)

/-- WIDE WIDE (R86): `raise Fault(NestedPrefix, p0 + 1)`. -/
def execWideWide (s : State) : Host.Outcome State Fault Refusal :=
  finish s (.raised .nestedPrefix (s.pc + 1))

end Sys2Proof.Machine
end

