-- ==== Sys2Proof/Machine/Dispatch.lean ====
section
/-! DEFINITION. One arm per instruction (41_decode_dispatch.md R81). -/

namespace Sys2Proof.Machine

def exec (i : Instr) (s : State) : Host.Outcome State Fault Refusal :=
  match i with
  | .nop => Sys2Proof.Machine.execNop s
  | .bipush imm8 => Sys2Proof.Machine.execBipush imm8 s
  | .ldcW cidx => Sys2Proof.Machine.execLdcW cidx s
  | .iload vidx => Sys2Proof.Machine.execIload vidx s
  | .istore vidx => Sys2Proof.Machine.execIstore vidx s
  | .pop => Sys2Proof.Machine.execPop s
  | .dup => Sys2Proof.Machine.execDup s
  | .swap => Sys2Proof.Machine.execSwap s
  | .iadd => Sys2Proof.Machine.execIadd s
  | .isub => Sys2Proof.Machine.execIsub s
  | .iand => Sys2Proof.Machine.execIand s
  | .iinc vidx inc8 => Sys2Proof.Machine.execIinc vidx inc8 s
  | .ifeq off => Sys2Proof.Machine.execIfeq off s
  | .iflt off => Sys2Proof.Machine.execIflt off s
  | .ifIcmpeq off => Sys2Proof.Machine.execIfIcmpeq off s
  | .goto off => Sys2Proof.Machine.execGoto off s
  | .ior => Sys2Proof.Machine.execIor s
  | .in_ => Sys2Proof.Machine.execIn s
  | .out => Sys2Proof.Machine.execOut s
  | .err => Sys2Proof.Machine.execErr s
  | .halt => Sys2Proof.Machine.execHalt s
  | .wide covered => Sys2Proof.Machine.execWide covered s
  | .wideIload vidx => Sys2Proof.Machine.execWideIload vidx s
  | .wideIstore vidx => Sys2Proof.Machine.execWideIstore vidx s
  | .wideIinc vidx inc8 => Sys2Proof.Machine.execWideIinc vidx inc8 s
  | .wideWide => Sys2Proof.Machine.execWideWide s
  | .unrecognized byte => Sys2Proof.Machine.execUnrecognized byte s

end Sys2Proof.Machine
end

