-- ==== Sys2Proof/Machine/Fetch.lean ====
section
/-! DEFINITION. Reading the instruction at the program counter (41_decode_dispatch.md R80,
20_memory.md R36), and placing bytes there. -/

namespace Sys2Proof.Machine

/-- What the decoder reads at `pc`: at and beyond `TEXT_SIZE` there is no byte (R36). -/
def State.fetch (s : State) : Decoded := decode s.cfg.opc (s.text.drop s.pc)

/-- `Step` (R80) in a state whose fault register is `none`: fetches, decodes and executes one
instruction; a byte that is not there raises `FetchOutOfRange` with its index (R36, R175). -/
def stepRunning (s : State) : Host.Outcome State Fault Refusal :=
  match s.fetch with
  | .ok i _ => exec i s.beginStep
  | .truncated off => finish s.beginStep (.raised .fetchOutOfRange (s.pc + off))

/-- A stream with `bytes` at `at_`, filled up with zeros where it does not reach so far. -/
def placeBytes (text : List Byte) (at_ : Nat) (bytes : List Byte) : List Byte :=
  text.take at_ ++ List.replicate (at_ - text.length) 0 ++ bytes ++ text.drop (at_ + bytes.length)

/-- The instruction of a row of spec/opcode_table.json stored where `step` fetches next. A faulted
machine fetches nothing, so the fault register is `none` after it: the call stands for loading an
image (R200; log 6). -/
def placeTableWord (s : State) (nbits w : Nat) : State :=
  { s with text := placeBytes s.text s.pc (tableBytes nbits (w % 2 ^ nbits)), fault := none }

end Sys2Proof.Machine
end

