-- ==== Sys2Proof/Machine/Step.lean ====
section
/-! DEFINITION. One step of the machine: a direct `Step` (41_decode_dispatch.md R80, R94; log 10).
The run loop that tests the terminal condition first is in Machine/RunLoop.lean. -/

namespace Sys2Proof.Machine

/-- One step. In a faulted state `Step` is not enabled (R177; log 11). -/
def step (s : State) : Host.Outcome State Fault Refusal :=
  match s.fault with
  | none => stepRunning s
  | some _ => .refused .stepWhileFaulted

/-- `s` with a row's instruction where `step` fetches its next one (log 6, log 15). -/
def State.withFetchWord (s : State) (nbits w : Nat) : State := placeTableWord s nbits w

end Sys2Proof.Machine
end

