-- ==== Sys2Proof/Machine/Loader.lean ====
section
/-! DEFINITION. The image format and boot (70_reset_and_hazards.md R200, R203 to R209; log 18). -/

namespace Sys2Proof.Machine

/-- Why a load fails (R208, R209). A source that cannot be read is the host's (R179). -/
inductive LoadError where
  /-- The first four bytes are not `MAGIC` (R205). -/
  | badMagic
  /-- The image ends before its last field does (R209). -/
  | tooShort
  deriving DecidableEq, Repr

/-- Four bytes as a word, the first the most significant (R34, R204). -/
def word (a b c d : Byte) : Word := a ++ b ++ c ++ d

/-- The four-byte field at the front of the bytes, and the bytes after it. -/
def takeWord : List Byte → Except LoadError (Word × List Byte)
  | a :: b :: c :: d :: rest => .ok (word a b c d, rest)
  | _ => .error .tooShort

/-- A field of `n` bytes at the front of the bytes, and the bytes after it. -/
def takeBytes (n : Nat) (bytes : List Byte) : Except LoadError (List Byte × List Byte) :=
  if bytes.length < n then .error .tooShort else .ok (bytes.take n, bytes.drop n)

/-- A constant pool as words; up to three bytes at its end belong to no word (R206). -/
def wordsOf : List Byte → List Word
  | a :: b :: c :: d :: rest => word a b c d :: wordsOf rest
  | _ => []

/-- The fields of R204 after the magic number; the two origins are read and ignored, bytes after the
instruction stream too (R209). -/
def loadBody (bytes : List Byte) : Except LoadError Image := do
  let (_, r1) ← takeWord bytes
  let (l1, r2) ← takeWord r1
  let (pool, r3) ← takeBytes l1.toNat r2
  let (_, r4) ← takeWord r3
  let (l2, r5) ← takeWord r4
  let (text, _) ← takeBytes l2.toNat r5
  return ⟨text, wordsOf pool⟩

/-- The image that the bytes of a source hold (R204 to R207, R209). -/
def loadImage (magic : Word) (bytes : List Byte) : Except LoadError Image := do
  let (m, r) ← takeWord bytes
  if m = magic then loadBody r else .error .badMagic

/-- Load, then reset (R200, R203): after a failed load there is no state (R208). -/
def boot (cfg : Config) (bytes : List Byte) (stk : Memory) (input : List Byte) (closed : Bool) :
    Except LoadError State := do
  let img ← loadImage cfg.magic bytes
  return State.resetWith cfg img stk input closed

/-- A word as four bytes, the most significant first (R34, R204). -/
def bytesOf (w : Word) : List Byte :=
  [w.extractLsb' 24 8, w.extractLsb' 16 8, w.extractLsb' 8 8, w.extractLsb' 0 8]

/-- The bytes of an image (R204), with any two origins. -/
def imageBytes (magic cpOrigin textOrigin : Word) (img : Image) : List Byte :=
  bytesOf magic ++ bytesOf cpOrigin ++ bytesOf (BitVec.ofNat 32 (4 * img.cp.length))
    ++ img.cp.flatMap bytesOf
    ++ bytesOf textOrigin ++ bytesOf (BitVec.ofNat 32 img.text.length) ++ img.text

end Sys2Proof.Machine
end

