-- ==== Sys2Proof/Machine/Query.lean ====
section
/-! DEFINITION. The terminal condition (41_decode_dispatch.md R90) and the host query surface
(60_exceptions.md R174, R186; 10_state.md R21). All are functions of the state: none changes it and
none reports a diagnostic. -/

namespace Sys2Proof.Machine

/-- Why the machine stands where it stands (R174). -/
inductive HaltCause where
  | faulted (f : FaultRecord)
  | haltedAtErr
  | haltedAtHalt
  | haltedEndErrSeen
  | haltedEnd
  | running
  deriving DecidableEq, Repr

/-- The three statuses of R21. -/
inductive Status where
  | running | halted | faulted
  deriving DecidableEq, Repr

namespace State

/-- Whether the byte at `pc` exists and is the byte of the opcode `o`. -/
def standsOn (s : State) (o : Opcode) : Bool := s.text[s.pc]? == some (s.cfg.opc.byteOf o)

/-- `Terminal()` (R90): the byte at `pc` only, with no regard to a prefix. -/
def terminal (s : State) : Bool :=
  decide (s.textSize ≤ s.pc) || s.standsOn .halt || s.standsOn .err

/-- The status as a function of the registers (R21). -/
def status (s : State) : Status :=
  if s.fault.isSome then .faulted else if s.terminal then .halted else .running

/-- `HaltCause()` (R174). -/
def haltCause (s : State) : HaltCause :=
  match s.fault with
  | some f => .faulted f
  | none =>
    if s.standsOn .err then .haltedAtErr
    else if s.standsOn .halt then .haltedAtHalt
    else if s.textSize ≤ s.pc then (if s.reported .err then .haltedEndErrSeen else .haltedEnd)
    else .running

/-- The error-terminal condition of R126 and R174. -/
def errorTerminal (s : State) : Bool := s.reported .err || s.standsOn .err

/-- The query constant(i) (R186): none stands for "invalid". -/
def queryConstant (s : State) (i : Nat) : Option Word := s.cp[i]?

/-- The query local(i) (R186): none stands for "invalid". -/
def queryLocal (s : State) (i : Nat) : Option Word :=
  if s.lv + i < s.cfg.stackCap then some (s.entry (s.lv + i)) else none

/-- The top-of-stack query (R186): the word and whether the stack is empty. Not `peek`: it reports
nothing. -/
def queryTop (s : State) : Word × Bool :=
  if 0 ≤ s.sp then (s.entry s.sp.toNat, false) else (0, true)

/-- The query for the program counter (R186). -/
def queryPc (s : State) : Nat := s.pc

/-- The query for the raw instruction bytes (R186); their number is `textSize`. -/
def queryText (s : State) : List Byte := s.text

/-- The last step's event list (R186, R171). -/
def queryEvents (s : State) : List Diagnostic := s.events

end State

end Sys2Proof.Machine
end

