-- ==== Sys2Proof/Machine/RunLoop.lean ====
section
/-! DEFINITION. The run loop (41_decode_dispatch.md R92), under fuel because it need not end (R93). -/

namespace Sys2Proof.Machine

/-- How a run ends. -/
inductive RunEnd where
  /-- No fault, and the terminal condition holds. -/
  | halted (s : State)
  /-- The fault register is written. -/
  | faulted (s : State)
  /-- The next step is held on the input source: neither halted nor faulted (R161). -/
  | held (s : State)
  /-- The model has no meaning for the next step. -/
  | refused (s : State) (r : Refusal)
  /-- The fuel is used up in a running state. -/
  | outOfFuel (s : State)
  deriving DecidableEq, Repr

/-- Whether the loop takes no step: `fault != none` or `Terminal()` (R92). -/
def runStops (s : State) : Option RunEnd :=
  if s.fault.isSome then some (.faulted s) else if s.terminal then some (.halted s) else none

/-- `Run()` with at most `fuel` steps (R92). -/
def runLoop : Nat → State → RunEnd
  | 0, s => (runStops s).getD (.outOfFuel s)
  | fuel + 1, s =>
    match runStops s with
    | some e => e
    | none =>
      match step s with
      | .next t => runLoop fuel t
      | .fault .heldForInput => .held s
      | .refused r => .refused s r

end Sys2Proof.Machine
end

