-- ==== Sys2Proof/Safety.lean ====
section
/-! DEFINITION. What counts as a good state (the invariants of 10_state.md R22), and the vocabulary
in which statements compare the state before an instruction with the state after it. -/

namespace Sys2Proof

/-- An instruction alone (`false`) or under a WIDE prefix that keeps its format (`true`, R85). -/
def Instr.aloneOrWide : Bool → Instr → Instr
  | false, i => i
  | true, i => .wide i

/-- The index of the instruction's own opcode byte: `p0`, or `p0 + 1` under a prefix (R81, R85). -/
def ownOpcode (p0 : Nat) (w : Bool) : Nat := p0 + w.toNat

/-- The offset of the second byte of the two-byte operand of an instruction, if it has one (R51). -/
def Instr.secondOperandByte : Instr → Option Nat
  | .nop => none
  | .bipush _ => none
  | .ldcW _ => some 2
  | .iload _ => none
  | .istore _ => none
  | .pop => none
  | .dup => none
  | .swap => none
  | .iadd => none
  | .isub => none
  | .iand => none
  | .iinc _ _ => none
  | .ifeq _ => some 2
  | .iflt _ => some 2
  | .ifIcmpeq _ => some 2
  | .goto _ => some 2
  | .ior => none
  | .in_ => none
  | .out => none
  | .err => none
  | .halt => none
  | .wide c => c.secondOperandByte.map (· + 1)
  | .wideIload _ => some 3
  | .wideIstore _ => some 3
  | .wideIinc _ _ => some 3
  | .wideWide => none
  | .unrecognized _ => none

end Sys2Proof

namespace Sys2Proof

open Machine

/-- Which entries of stack storage an instruction stores to. -/
inductive StoreShape where
  | nothing
  | push
  | twoOperands
  | swap
  | input
  | slot (vidx : Nat)
  deriving DecidableEq, Repr

/-- The stores of each instruction, from the pseudocode of files 42 to 46. -/
def Instr.storeShape : Instr → StoreShape
  | .nop => .nothing
  | .bipush _ => .push
  | .ldcW _ => .push
  | .iload _ => .push
  | .istore v => .slot v.toNat
  | .pop => .nothing
  | .dup => .push
  | .swap => .swap
  | .iadd => .twoOperands
  | .isub => .twoOperands
  | .iand => .twoOperands
  | .iinc v _ => .slot v.toNat
  | .ifeq _ => .nothing
  | .iflt _ => .nothing
  | .ifIcmpeq _ => .nothing
  | .goto _ => .nothing
  | .ior => .twoOperands
  | .in_ => .input
  | .out => .nothing
  | .err => .nothing
  | .halt => .nothing
  | .wide c => c.storeShape
  | .wideIload _ => .push
  | .wideIstore v => .slot v.toNat
  | .wideIinc v _ => .slot v.toNat
  | .wideWide => .nothing
  | .unrecognized _ => .nothing

/-- The diagnostics each instruction can report: the table of R172. -/
def Instr.mayReport : Instr → List Diagnostic
  | .nop => []
  | .bipush _ => [.ovf]
  | .ldcW _ => [.ovf]
  | .iload _ => [.ovf]
  | .istore _ => [.unf]
  | .pop => [.unf]
  | .dup => [.emp, .ovf]
  | .swap => [.unf, .ovf]
  | .iadd => [.unf]
  | .isub => [.unf]
  | .iand => [.unf]
  | .iinc _ _ => []
  | .ifeq _ => [.unf]
  | .iflt _ => [.unf]
  | .ifIcmpeq _ => [.unf]
  | .goto _ => []
  | .ior => [.unf]
  | .in_ => [.ovf]
  | .out => [.unf]
  | .err => [.err]
  | .halt => []
  | .wide c => c.mayReport
  | .wideIload _ => [.ovf]
  | .wideIstore _ => [.unf]
  | .wideIinc _ _ => []
  | .wideWide => []
  | .unrecognized _ => []

/-- The faults that executing each decoded instruction can raise: the table of R175 without
`FetchOutOfRange`, which reading its bytes raises. -/
def Instr.mayRaise : Instr → List FaultCause
  | .nop => []
  | .bipush _ => []
  | .ldcW _ => [.constIndexOutOfRange]
  | .iload _ => [.localIndexOutOfRange]
  | .istore _ => [.localIndexOutOfRange]
  | .pop => []
  | .dup => []
  | .swap => []
  | .iadd => []
  | .isub => []
  | .iand => []
  | .iinc _ _ => [.localIndexOutOfRange]
  | .ifeq _ => [.branchTargetOutOfRange]
  | .iflt _ => [.branchTargetOutOfRange]
  | .ifIcmpeq _ => [.branchTargetOutOfRange]
  | .goto _ => [.branchTargetOutOfRange]
  | .ior => []
  | .in_ => []
  | .out => []
  | .err => []
  | .halt => []
  | .wide c => c.mayRaise
  | .wideIload _ => [.localIndexOutOfRange]
  | .wideIstore _ => [.localIndexOutOfRange]
  | .wideIinc _ _ => [.localIndexOutOfRange]
  | .wideWide => [.nestedPrefix]
  | .unrecognized _ => []

end Sys2Proof

namespace Sys2Proof.Machine

/-- A word put on an operand stack, top first, that holds at most `cap` words (R70). -/
def pushOn (cap : Nat) (w : Word) (l : List Word) : List Word := if l.length < cap then w :: l else l

/-- The diagnostics of a push on an operand stack of `n` words (R70). -/
def pushReports (cap n : Nat) : List Diagnostic := if n < cap then [] else [.ovf]

/-- The diagnostics of `k` pops from an operand stack of `n` words (R71). -/
def popReports (k n : Nat) : List Diagnostic := List.replicate (k - n) .unf

namespace State

/-- The invariants of R22 (a) to (d), with what R5 and R59 require of the parameters, the bound on
`TEXT_SIZE`, and the canonical form of the stack storage. -/
abbrev Inv (s : State) : Prop :=
  s.cfg.valid ∧ s.textSize < 2 ^ 32
    ∧ -1 ≤ s.sp ∧ s.sp ≤ s.cfg.stackCap - 1
    ∧ s.pc ≤ s.textSize
    ∧ s.wide = false
    ∧ s.lv = s.cfg.lvReset
    ∧ Memory.wf s.stk = true ∧ Memory.within s.cfg.stackCap s.stk = true

/-- The part of `Inv` that an instruction's result rests on: `sp` is legal (R12), `STACK_CAP >= 1`
(R5, D4), and `wide` is 0 at the step boundary (R15). -/
abbrev AtBoundary (s : State) : Prop :=
  -1 ≤ s.sp ∧ s.sp ≤ s.cfg.stackCap - 1 ∧ 1 ≤ s.cfg.stackCap ∧ s.wide = false

/-- The operand stack, top first: `stk[sp]`, …, `stk[0]` (R12). -/
def operands (s : State) : List Word := ((List.range (s.sp + 1).toNat).map s.entry).reverse

/-- The word that the `n`-th pop from here yields: the operand, or 0 where there is none (R71). -/
def operand (s : State) (n : Nat) : Word := s.operands.getD n 0

/-- The depth of the operand stack. -/
def depth (s : State) : Nat := s.operands.length

/-- Everything that no instruction writes is the same: parameters, instruction stream, constant
pool, `lv`. -/
def SameImage (s t : State) : Prop :=
  t.cfg = s.cfg ∧ t.text = s.text ∧ t.cp = s.cp ∧ t.lv = s.lv

/-- The control registers are the same: `wide` and the fault register. -/
def SameControl (s t : State) : Prop := t.wide = s.wide ∧ t.fault = s.fault

/-- The byte channels are the same. -/
def SameChannels (s t : State) : Prop :=
  t.input = s.input ∧ t.inputClosed = s.inputClosed ∧ t.output = s.output

/-- From `s` to `t` exactly the diagnostics `ds` are reported, in this order: the event list grows
by them, their sticky bits are set and no other bit of `diag` changes (R16, R171). -/
def Reports (s t : State) (ds : List Diagnostic) : Prop :=
  t.events = s.events ++ ds ∧ ∀ d, t.reported d = (s.reported d || ds.contains d)

/-- Every entry of stack storage but those of `ks` reads as before. -/
def SameEntriesBut (s t : State) (ks : List Nat) : Prop := ∀ k, k ∉ ks → t.entry k = s.entry k

/-- An instruction ends with `pc = p`, having reported exactly `ds`; parameters, image, `lv`, `wide`
and the fault register are the same. -/
def Finishes (s t : State) (p : Nat) (ds : List Diagnostic) : Prop :=
  t.pc = p ∧ Reports s t ds ∧ SameImage s t ∧ SameControl s t

/-- An instruction finishes so with the operand stack `ops`. -/
def Ends (s t : State) (p : Nat) (ops : List Word) (ds : List Diagnostic) : Prop :=
  t.operands = ops ∧ Finishes s t p ds

/-- `t` is `s` with the fault `(cause, at = pc of s, info)` raised: nothing else is written, and the
event list is empty (R176). -/
def Raised (s t : State) (cause : FaultCause) (info : Int) : Prop :=
  t = { s with fault := some ⟨cause, s.pc, info⟩, events := [] }

/-- `push` of each word of a list, the first of the list first. -/
def pushAll (l : List Word) (s : State) : State := l.foldl (fun t w => t.push w) s

/-- The words of `n` pops, in the order they come, and the state after them. -/
def popMany : Nat → State → List Word × State
  | 0, s => ([], s)
  | n + 1, s => (s.pop.1 :: (popMany n s.pop.2).1, (popMany n s.pop.2).2)

end State

end Sys2Proof.Machine
end

