-- ==== Sys2Proof/Certificates/Slice0/Obligations.lean ====
section
/-! DEFINITION. The statements for the provers. Words of the spec that a statement formalises are
named in its docstring; a rule that the spec marks as its own decision or derivation is named as such.
Byte values appear in no statement but `WordsOfTheDefaultMapDecode`. -/

open Sys2Proof Sys2Proof.Machine

/-! ### Encoding -/

/-- Words written out from the encodings of R51 with the default opcode bytes of R58, one or more for
each family. The byte values are general knowledge, not the source's (log 2). -/
def Obligations.WordsOfTheDefaultMapDecode : Prop :=
  decode defaultOpc [0x10, 0xFB] = .ok (.bipush 0xFB) [] ∧
  decode defaultOpc [0x5F, 0x00] = .ok .swap [0x00] ∧
  decode defaultOpc [0x64] = .ok .isub [] ∧
  decode defaultOpc [0xA7, 0xFF, 0xF4] = .ok (.goto 0xFFF4) [] ∧
  decode defaultOpc [0x13, 0x01, 0x02, 0xFF] = .ok (.ldcW 0x0102) [0xFF] ∧
  decode defaultOpc [0x84, 0x05, 0x80] = .ok (.iinc 5 0x80) [] ∧
  decode defaultOpc [0xC4, 0x36, 0x01, 0x2C] = .ok (.wideIstore 300) [] ∧
  decode defaultOpc [0xC4, 0x84, 0x01, 0x00, 0x05] = .ok (.wideIinc 256 5) [] ∧
  decode defaultOpc [0xC4, 0xA7, 0x00, 0x04] = .ok (.wide (.goto 4)) [] ∧
  decode defaultOpc [0xC4, 0xC4, 0x15] = .ok .wideWide [0x15] ∧
  decode defaultOpc [0xFC] = .ok .in_ [] ∧
  decode defaultOpc [0xB6, 0x00] = .ok (.unrecognized 0xB6) [0x00] ∧
  decode defaultOpc [0xC4] = .truncated 1 ∧
  decode defaultOpc [0x84, 0x05] = .truncated 2

/-- The formats of R51 and the operands of R57, read from bytes without the encoder, for every opcode
map: two-byte operands big-endian (R34), indices unsigned, the prefix before the 18 opcodes it leaves
alone, and bytes that are no opcode (R60). -/
def Obligations.FormatsAreReadFromTheirBytes : Prop :=
  ∀ (opc : OpcodeMap) (rest : List Byte), opc.distinct →
    (∀ w i o, (o, i) ∈ [(Opcode.nop, Instr.nop), (.pop, .pop), (.dup, .dup), (.swap, .swap),
        (.iadd, .iadd), (.isub, .isub), (.iand, .iand), (.ior, .ior), (.in_, .in_), (.out, .out),
        (.err, .err), (.halt, .halt)] →
      decode opc ((if w then [opc.wide] else []) ++ opc.byteOf o :: rest)
        = .ok (i.aloneOrWide w) rest) ∧
    (∀ w (b : Byte), opc.find b = none →
      decode opc ((if w then [opc.wide] else []) ++ b :: rest)
        = .ok ((Instr.unrecognized b).aloneOrWide w) rest) ∧
    (∀ w (b : Byte), decode opc ((if w then [opc.wide] else []) ++ opc.bipush :: b :: rest)
        = .ok ((Instr.bipush b).aloneOrWide w) rest) ∧
    (∀ w (h l : Byte),
      decode opc ((if w then [opc.wide] else []) ++ opc.ldcW :: h :: l :: rest)
        = .ok ((Instr.ldcW (h ++ l)).aloneOrWide w) rest ∧
      decode opc ((if w then [opc.wide] else []) ++ opc.goto :: h :: l :: rest)
        = .ok ((Instr.goto (h ++ l)).aloneOrWide w) rest ∧
      decode opc ((if w then [opc.wide] else []) ++ opc.ifeq :: h :: l :: rest)
        = .ok ((Instr.ifeq (h ++ l)).aloneOrWide w) rest ∧
      decode opc ((if w then [opc.wide] else []) ++ opc.iflt :: h :: l :: rest)
        = .ok ((Instr.iflt (h ++ l)).aloneOrWide w) rest ∧
      decode opc ((if w then [opc.wide] else []) ++ opc.ifIcmpeq :: h :: l :: rest)
        = .ok ((Instr.ifIcmpeq (h ++ l)).aloneOrWide w) rest) ∧
    (∀ v c : Byte,
      decode opc (opc.iload :: v :: rest) = .ok (.iload v) rest ∧
      decode opc (opc.istore :: v :: rest) = .ok (.istore v) rest ∧
      decode opc (opc.iinc :: v :: c :: rest) = .ok (.iinc v c) rest) ∧
    (∀ h l c : Byte,
      decode opc (opc.wide :: opc.iload :: h :: l :: rest) = .ok (.wideIload (h ++ l)) rest ∧
      decode opc (opc.wide :: opc.istore :: h :: l :: rest) = .ok (.wideIstore (h ++ l)) rest ∧
      decode opc (opc.wide :: opc.iinc :: h :: l :: c :: rest) = .ok (.wideIinc (h ++ l) c) rest) ∧
    decode opc (opc.wide :: opc.wide :: rest) = .ok .wideWide rest

/-- Every well-formed instruction is what the decoder reads from its encoding, with every operand at
every value, whatever follows, for every opcode map of distinct bytes (R59). -/
def Obligations.DecodeOfEncodeIsTheInstruction : Prop :=
  ∀ (opc : OpcodeMap) (i : Instr) (rest : List Byte), opc.distinct → i.wf opc = true →
    decode opc (encode opc i ++ rest) = .ok i rest

/-- What the decoder reads is a well-formed instruction whose encoding is exactly the bytes read: no
bit of the stream is dropped, and no two byte strings give one instruction (R51, R61). -/
def Obligations.EncodeOfDecodeIsTheBytes : Prop :=
  ∀ (opc : OpcodeMap) (i : Instr) (bytes rest : List Byte), decode opc bytes = .ok i rest →
    i.wf opc = true ∧ bytes = encode opc i ++ rest

/-- An instruction cut off after its first `n` bytes is truncated at the `MemRead` that needs byte
`n`: at byte `n` itself, or at the byte before it when it is the second byte of a two-byte operand
(R36, R175: "index of the first byte of the `MemRead` that failed"). The fault is the spec's decision
D12. -/
def Obligations.CutOffInstructionIsTruncatedAtItsRead : Prop :=
  ∀ (opc : OpcodeMap) (i : Instr) (n : Nat), opc.distinct → i.wf opc = true →
    n < (encode opc i).length →
    decode opc ((encode opc i).take n)
      = .truncated (if i.secondOperandByte = some n then n - 1 else n)

/-! ### A step -/

/-- A step runs the instruction the decoder reads at `pc` (R80, R81), on the state with an empty event
list; so where the bytes at `pc` are those of a well-formed instruction it runs that one. -/
def Obligations.StepRunsTheDecodedInstruction : Prop :=
  ∀ (s : State) (i : Instr) (rest : List Byte), s.fault = none →
    (decode s.cfg.opc (s.text.drop s.pc) = .ok i rest → step s = exec i { s with events := [] }) ∧
    (s.cfg.opc.distinct → i.wf s.cfg.opc = true →
      s.text.drop s.pc = encode s.cfg.opc i ++ rest → step s = exec i { s with events := [] })

/-- A step whose instruction is cut off by the end of the stream raises `FetchOutOfRange` with the
index of the read that failed, and so does a step at or beyond the end (R36, R94; decision D12). -/
def Obligations.StepPastTheEndFaults : Prop :=
  ∀ s : State, s.fault = none →
    (∀ off, decode s.cfg.opc (s.text.drop s.pc) = .truncated off →
      ∃ t, step s = .next t ∧ s.Raised t .fetchOutOfRange (s.pc + off)) ∧
    (s.textSize ≤ s.pc → ∃ t, step s = .next t ∧ s.Raised t .fetchOutOfRange s.pc)

/-- In a faulted state no step is enabled and a run ends at once (R177; decision D9, log 11). -/
def Obligations.FaultedMachineTakesNoStep : Prop :=
  ∀ s : State, s.fault ≠ none →
    step s = .refused .stepWhileFaulted ∧ s.status = .faulted ∧ ∀ n, runLoop n s = .faulted s

/-- In every state that is not faulted a step has a next state, but for IN (alone or under WIDE)
waiting for an open source that has no byte (R161): the model refuses no instruction. -/
def Obligations.StepRunsOrWaitsForInput : Prop :=
  ∀ s : State, s.fault = none →
    (∃ t, step s = .next t) ∨
    (step s = .fault .heldForInput ∧ s.input = [] ∧ s.inputClosed = false ∧
      ∃ rest, decode s.cfg.opc (s.text.drop s.pc) = .ok .in_ rest ∨
        decode s.cfg.opc (s.text.drop s.pc) = .ok (.wide .in_) rest)

/-! ### Reset -/

/-- What reset leaves (R23, R200), whatever the image, the parameters, the initial stack storage and
the input: `pc = 0` and `lv`, `diag`, `fault` by decisions D6, D5, D8, D9. The machine is then running
unless the stream is empty or its first byte is HALT or ERR, in which case `Run` takes no step. The
last two clauses are the model's choice (log 12, log 7). -/
def Obligations.ResetLeavesTheseValues : Prop :=
  ∀ (cfg : Config) (img : Image) (m : Memory) (input : List Byte) (closed : Bool),
    let s := State.resetWith cfg img m input closed
    s.pc = 0 ∧ s.sp = -1 ∧ s.operands = [] ∧ s.lv = cfg.lvReset ∧ s.wide = false
      ∧ (∀ d, s.reported d = false) ∧ s.fault = none ∧ s.stk = m
      ∧ s.text = img.text ∧ s.cp = img.cp ∧ s.cfg = cfg
      ∧ (s.status = .running ↔ img.text ≠ [] ∧ img.text.head? ≠ some cfg.opc.halt
          ∧ img.text.head? ≠ some cfg.opc.err)
      ∧ (s.status ≠ .running → ∀ n, runLoop n s = .halted s)
      ∧ s.events = [] ∧ s.input = input ∧ s.inputClosed = closed ∧ s.output = []

/-- The invariants of R22 hold after reset from any image of fewer than 2^32 bytes, with any valid
parameters and any canonical initial storage, and so at the model's own reset state (logs 3 to 7). -/
def Obligations.ResetMeetsTheInvariants : Prop :=
  (∀ (cfg : Config) (img : Image) (m : Memory) (input : List Byte) (closed : Bool),
    cfg.valid → img.text.length < 2 ^ 32 → Memory.wf m = true →
    Memory.within cfg.stackCap m = true → (State.resetWith cfg img m input closed).Inv) ∧
  State.reset.Inv

/-! ### Whole-machine rules -/

/-- The invariants of R22 are kept by every step, from every state that meets them: `sp` is -1 or an
index of the storage, `pc` is at most `TEXT_SIZE`, `wide` is 0, `lv` is `LV_RESET`, the storage is in
canonical form and lists nothing outside it. -/
def Obligations.EveryStepKeepsTheInvariants : Prop :=
  ∀ s t : State, s.Inv → step s = .next t → t.Inv

/-- No step writes the instruction stream, the constant pool, `lv` or a parameter (R14, R31, R32), in
any state. -/
def Obligations.NoStepWritesTheImage : Prop :=
  ∀ s t : State, step s = .next t → s.SameImage t

/-- The bits of `diag` are sticky: after a step a bit is set exactly if it was set or the step reported
that diagnostic (R16, R171, R22 (e); decision D8). -/
def Obligations.DiagnosticBitsAreSticky : Prop :=
  ∀ s t : State, step s = .next t → ∀ d, t.reported d = (s.reported d || t.events.contains d)

/-- A fault is precise: when a step leaves the fault register written, everything else is as before the
step, the event list is empty, and the register holds the `pc` of the start of the step (R17, R22 (f),
R176; decisions D9, D26). -/
def Obligations.RaisedFaultsArePrecise : Prop :=
  ∀ (s t : State) (f : FaultRecord), s.fault = none → step s = .next t → t.fault = some f →
    f.at_ = s.pc ∧ s.Raised t f.cause f.info

/-- `diag`, the event list and the output are read by no instruction (R16, R19, R162): with any other
values there, the step has the same outcome and leaves the rest of the state the same. -/
def Obligations.NoStepReadsDiagnosticsOrOutput : Prop :=
  ∀ (s : State) (d : BitVec 4) (ev : List Diagnostic) (o : List Byte),
    (∀ t, step s = .next t → ∃ t', step { s with diag := d, events := ev, output := o } = .next t' ∧
      { t' with diag := t.diag, events := t.events, output := t.output } = t ∧
      t'.events = t.events) ∧
    (∀ r, step s = .fault r → step { s with diag := d, events := ev, output := o } = .fault r) ∧
    (∀ r, step s = .refused r → step { s with diag := d, events := ev, output := o } = .refused r)

/-- Only IN reads the input source (R95, R160): every other instruction does the same whatever the
source holds, and leaves it. -/
def Obligations.OnlyInReadsTheInput : Prop :=
  ∀ (s t : State) (i : Instr) (l : List Byte) (closed : Bool), i ≠ .in_ → i ≠ .wide .in_ →
    exec i s = .next t →
    exec i { s with input := l, inputClosed := closed }
        = .next { t with input := l, inputClosed := closed }
      ∧ t.input = s.input ∧ t.inputClosed = s.inputClosed

/-- Which diagnostics which instruction can report, the table of R172, where SWAP reports OVF only with
`STACK_CAP = 1`; and which faults which instruction can raise when executed, the table of R175
(decisions D10 to D14). -/
def Obligations.OnlyTheListedReportsAndFaultsHappen : Prop :=
  ∀ (s t : State) (i : Instr), exec i s = .next t →
    (s.AtBoundary → ∀ d ∈ t.events, d ∈ s.events ∨
      (d ∈ i.mayReport ∧ (i.storeShape = .swap → d = .ovf → s.cfg.stackCap = 1))) ∧
    (s.fault = none → ∀ f, t.fault = some f → f.cause ∈ i.mayRaise)

/-! ### The primitives -/

/-- `push` (R70): "if capacity exceeded, reports overflow and the value is **not** pushed"; else the
value is the new top and every other entry is as it was. The last clause is of the caller on a full
stack: a pushing instruction that completes without a fault ends past its bytes; that it completes is
in the statements of each instruction's result. -/
def Obligations.PushAppendsOrReportsOverflow : Prop :=
  ∀ (s : State) (v : Word), -1 ≤ s.sp → s.sp ≤ s.cfg.stackCap - 1 →
    (s.sp = s.cfg.stackCap - 1 → (s.push v).sp = s.sp ∧ s.SameEntriesBut (s.push v) [] ∧
      s.Finishes (s.push v) s.pc [.ovf]) ∧
    (s.sp ≠ s.cfg.stackCap - 1 → (s.push v).sp = s.sp + 1 ∧
      (s.push v).entry (s.sp + 1).toNat = v ∧ s.SameEntriesBut (s.push v) [(s.sp + 1).toNat] ∧
      s.Finishes (s.push v) s.pc []) ∧
    (s.push v).operands = pushOn s.cfg.stackCap v s.operands ∧ s.SameChannels (s.push v) ∧
    (∀ (i : Instr) (t : State), s.sp = s.cfg.stackCap - 1 → s.fault = none →
      i.storeShape = .push ∨ i.storeShape = .input → exec i s = .next t → t.fault = none →
      t.pc = s.pc + i.length ∧ t.sp = s.sp ∧ s.SameEntriesBut t [])

/-- `pop` (R71): "removes and returns top value; if empty, reports underflow and returns a zero
sentinel". That the vacated entry keeps its word is the spec's decision D7. -/
def Obligations.PopRemovesOrReportsUnderflow : Prop :=
  ∀ s : State, -1 ≤ s.sp →
    (s.sp = -1 → s.pop.1 = 0 ∧ s.pop.2.sp = -1 ∧ s.Finishes s.pop.2 s.pc [.unf]) ∧
    (0 ≤ s.sp → s.pop.1 = s.entry s.sp.toNat ∧ s.pop.2.sp = s.sp - 1 ∧
      s.Finishes s.pop.2 s.pc []) ∧
    s.SameEntriesBut s.pop.2 [] ∧ s.pop.2.operands = s.operands.drop 1 ∧ s.SameChannels s.pop.2

/-- `peek` (R72): "returns top value; if empty, reports empty-stack and returns a zero sentinel", and
changes nothing else; DUP is the only instruction that calls it. The clause on the host's query of the
top is R186's: that it answers 0 and "empty" on an empty stack, and only reads the state, is the spec's
decision D20 (log 21). -/
def Obligations.PeekReadsOrReportsEmpty : Prop :=
  ∀ s : State, -1 ≤ s.sp →
    (s.sp = -1 → s.peek.1 = 0 ∧ s.Finishes s.peek.2 s.pc [.emp]) ∧
    (0 ≤ s.sp → s.peek.1 = s.entry s.sp.toNat ∧ s.peek.2 = s) ∧
    s.SameEntriesBut s.peek.2 [] ∧ s.peek.2.sp = s.sp ∧ s.SameChannels s.peek.2 ∧
    s.queryTop = (s.peek.1, decide (s.sp = -1)) ∧
    (∀ (i : Instr) (t : State), s.AtBoundary → exec i s = .next t → Diagnostic.emp ∉ s.events →
      Diagnostic.emp ∈ t.events → i = .dup ∨ i = .wide .dup)

/-- "Pushing N values then popping N values yields them in exact reverse order" (R73 (b)), provided
`sp + N <= STACK_CAP - 1`; the operand stack is then what it was, and nothing is reported. -/
def Obligations.PushesThenPopsComeBackReversed : Prop :=
  ∀ (s : State) (l : List Word), -1 ≤ s.sp → s.sp + l.length ≤ s.cfg.stackCap - 1 →
    ((s.pushAll l).popMany l.length).1 = l.reverse ∧
    ((s.pushAll l).popMany l.length).2.sp = s.sp ∧
    ((s.pushAll l).popMany l.length).2.operands = s.operands ∧
    ((s.pushAll l).popMany l.length).2.events = s.events

/-! ### Stack instructions. Every result is stated for the instruction alone and under WIDE (R85). -/

/-- An unrecognized byte (R83), "any byte not in the image of `OPC`", and NOP (R104), which behaves
the same: "Writes nothing but `pc`. Reports no diagnostic, raises no fault, touches neither stack nor
I/O." Said of the instruction, and of the step that meets the byte, alone and under a prefix: the next
step starts at the byte after it. -/
def Obligations.NopAndUnrecognizedOnlyAdvance : Prop :=
  ∀ (s : State) (w : Bool) (b : Byte) (rest : List Byte), s.wide = false →
    exec (Instr.nop.aloneOrWide w) s = .next { s with pc := ownOpcode s.pc w + 1 } ∧
    exec ((Instr.unrecognized b).aloneOrWide w) s = .next { s with pc := ownOpcode s.pc w + 1 } ∧
    (s.fault = none → s.cfg.opc.distinct → (∀ o, s.cfg.opc.byteOf o ≠ b) ∨ b = s.cfg.opc.nop →
      s.text.drop s.pc = (if w then [s.cfg.opc.wide] else []) ++ b :: rest →
      step s = .next { s with pc := ownOpcode s.pc w + 1, events := [] })

/-- BIPUSH (R100): "push sign-extended 8-bit immediate". -/
def Obligations.BipushPushesTheSignExtendedByte : Prop :=
  ∀ (s : State) (w : Bool) (imm8 : Byte), s.AtBoundary →
    ∃ t, exec ((Instr.bipush imm8).aloneOrWide w) s = .next t ∧
      s.Ends t (ownOpcode s.pc w + 2) (pushOn s.cfg.stackCap (BitVec.ofInt 32 imm8.toInt) s.operands)
        (pushReports s.cfg.stackCap s.depth) ∧
      s.SameChannels t

/-- DUP (R101): "push(copy of top)"; on an empty stack a zero is pushed and EMP reported, which is the
spec's decision D15. -/
def Obligations.DupPushesTheTop : Prop :=
  ∀ (s : State) (w : Bool), s.AtBoundary →
    ∃ t, exec (Instr.dup.aloneOrWide w) s = .next t ∧
      s.Ends t (ownOpcode s.pc w + 1) (pushOn s.cfg.stackCap (s.operand 0) s.operands)
        ((if s.operands = [] then [.emp] else []) ++ pushReports s.cfg.stackCap s.depth) ∧
      s.SameChannels t

/-- POP (R102): "discard top", with UNF and nothing else on an empty stack. That the discarded word
stays in its entry is decision D7. -/
def Obligations.PopDiscardsTheTop : Prop :=
  ∀ (s : State) (w : Bool), s.AtBoundary →
    ∃ t, exec (Instr.pop.aloneOrWide w) s = .next t ∧
      s.Ends t (ownOpcode s.pc w + 1) (s.operands.drop 1) (popReports 1 s.depth) ∧
      s.SameChannels t ∧ s.SameEntriesBut t []

/-- SWAP (R103): "exchange top two"; with fewer than two entries the missing ones are zeros with UNF,
and with `STACK_CAP = 1` the second push overflows, which is the spec's decision D16. -/
def Obligations.SwapExchangesTheTopTwo : Prop :=
  ∀ (s : State) (w : Bool), s.AtBoundary →
    ∃ t, exec (Instr.swap.aloneOrWide w) s = .next t ∧
      s.Ends t (ownOpcode s.pc w + 1)
        (if s.cfg.stackCap = 1 then [s.operand 0]
          else s.operand 1 :: s.operand 0 :: s.operands.drop 2)
        (popReports 2 s.depth ++ if s.cfg.stackCap = 1 then [.ovf] else []) ∧
      s.SameChannels t

/-! ### Arithmetic and logic -/

/-- IADD, IAND, IOR (R110, R112, R113): "pop b, pop a, push(a+b)" modulo 2^32, "push(a & b)",
"push(a|b)", all 32 bits; UNF for each pop of an empty stack, never OVF. -/
def Obligations.AddAndOrCombineTheTopTwo : Prop :=
  ∀ (s : State) (w : Bool), s.AtBoundary →
    let a := s.operand 1
    let b := s.operand 0
    (∃ t, exec (Instr.iadd.aloneOrWide w) s = .next t ∧
      s.Ends t (ownOpcode s.pc w + 1) (BitVec.ofInt 32 (a.toInt + b.toInt) :: s.operands.drop 2)
        (popReports 2 s.depth) ∧ s.SameChannels t) ∧
    (∃ t, exec (Instr.iand.aloneOrWide w) s = .next t ∧
      s.Ends t (ownOpcode s.pc w + 1) ((a &&& b) :: s.operands.drop 2)
        (popReports 2 s.depth) ∧ s.SameChannels t) ∧
    (∃ t, exec (Instr.ior.aloneOrWide w) s = .next t ∧
      s.Ends t (ownOpcode s.pc w + 1) ((a ||| b) :: s.operands.drop 2)
        (popReports 2 s.depth) ∧ s.SameChannels t)

/-- ISUB (R111): "both **truncated to 8-bit signed range before subtracting**, result push(a-b)"; the
result is the difference itself, in -255 .. 255. That it is not narrowed again is decision D18. -/
def Obligations.IsubSubtractsTheLowBytes : Prop :=
  ∀ (s : State) (w : Bool), s.AtBoundary →
    let a8 := ((s.operand 1).setWidth 8).toInt
    let b8 := ((s.operand 0).setWidth 8).toInt
    ∃ t, exec (Instr.isub.aloneOrWide w) s = .next t ∧
      s.Ends t (ownOpcode s.pc w + 1) (t.operand 0 :: s.operands.drop 2) (popReports 2 s.depth) ∧
      (t.operand 0).toInt = a8 - b8 ∧ -255 ≤ a8 - b8 ∧ a8 - b8 ≤ 255 ∧ s.SameChannels t

/-- The narrowing subtract agrees with the full one when both operands are in -128 .. 127. The spec's
derived sentence of R111 says "exactly when"; by its own pseudocode the other direction is false, as
300 - 257 shows (log 21). -/
def Obligations.NarrowSubtractAgreesOnSmallOperands : Prop :=
  (∀ a b : Word, -128 ≤ a.toInt → a.toInt ≤ 127 → -128 ≤ b.toInt → b.toInt ≤ 127 →
    narrowSub a b = a - b) ∧
  narrowSub 300 257 = (300 : Word) - 257

/-! ### Control transfer -/

/-- GOTO (R120, R124): to the index of its own opcode byte plus the offset, when that is the index of a
byte of the stream; the stack is untouched. -/
def Obligations.GotoGoesToItsTarget : Prop :=
  ∀ (s : State) (w : Bool) (off : Half), s.AtBoundary →
    0 ≤ (ownOpcode s.pc w : Int) + off.toInt →
    (ownOpcode s.pc w : Int) + off.toInt < s.textSize →
    ∃ t, exec ((Instr.goto off).aloneOrWide w) s = .next t ∧
      s.Ends t ((ownOpcode s.pc w : Int) + off.toInt).toNat s.operands [] ∧ s.SameChannels t

/-- IFEQ, IFLT, IF_ICMPEQ when taken (R121, R122, R123, R124): the popped word is zero, is negative as
a signed word, or the two popped words are equal in all 32 bits; the target is as for GOTO, and the
words are popped. -/
def Obligations.TakenBranchesGoToTheirTarget : Prop :=
  ∀ (s : State) (w : Bool) (off : Half), s.AtBoundary →
    0 ≤ (ownOpcode s.pc w : Int) + off.toInt →
    (ownOpcode s.pc w : Int) + off.toInt < s.textSize →
    let target := ((ownOpcode s.pc w : Int) + off.toInt).toNat
    (s.operand 0 = 0 → ∃ t, exec ((Instr.ifeq off).aloneOrWide w) s = .next t ∧
      s.Ends t target (s.operands.drop 1) (popReports 1 s.depth) ∧ s.SameChannels t) ∧
    ((s.operand 0).toInt < 0 → ∃ t, exec ((Instr.iflt off).aloneOrWide w) s = .next t ∧
      s.Ends t target (s.operands.drop 1) (popReports 1 s.depth) ∧ s.SameChannels t) ∧
    (s.operand 1 = s.operand 0 → ∃ t, exec ((Instr.ifIcmpeq off).aloneOrWide w) s = .next t ∧
      s.Ends t target (s.operands.drop 2) (popReports 2 s.depth) ∧ s.SameChannels t)

/-- IFEQ, IFLT, IF_ICMPEQ when not taken (R82, R121, R122, R123): past the operand, whatever its target
is, with the words popped. -/
def Obligations.UntakenBranchesFallThrough : Prop :=
  ∀ (s : State) (w : Bool) (off : Half), s.AtBoundary →
    (s.operand 0 ≠ 0 → ∃ t, exec ((Instr.ifeq off).aloneOrWide w) s = .next t ∧
      s.Ends t (ownOpcode s.pc w + 3) (s.operands.drop 1) (popReports 1 s.depth) ∧
      s.SameChannels t) ∧
    (0 ≤ (s.operand 0).toInt → ∃ t, exec ((Instr.iflt off).aloneOrWide w) s = .next t ∧
      s.Ends t (ownOpcode s.pc w + 3) (s.operands.drop 1) (popReports 1 s.depth) ∧
      s.SameChannels t) ∧
    (s.operand 1 ≠ s.operand 0 → ∃ t, exec ((Instr.ifIcmpeq off).aloneOrWide w) s = .next t ∧
      s.Ends t (ownOpcode s.pc w + 3) (s.operands.drop 2) (popReports 2 s.depth) ∧
      s.SameChannels t)

/-- A taken branch whose target is no index of a byte of the stream raises `BranchTargetOutOfRange`
with that target (R124, decision D13): nothing is popped. -/
def Obligations.WildTakenBranchesFault : Prop :=
  ∀ (s : State) (w : Bool) (off : Half), s.AtBoundary →
    let target : Int := (ownOpcode s.pc w : Int) + off.toInt
    target < 0 ∨ (s.textSize : Int) ≤ target →
    ∀ i : Instr,
      (i = .goto off ∨ i = .ifeq off ∧ s.operand 0 = 0 ∨ i = .iflt off ∧ (s.operand 0).toInt < 0 ∨
        i = .ifIcmpeq off ∧ s.operand 1 = s.operand 0) →
      ∃ t, exec (i.aloneOrWide w) s = .next t ∧ s.Raised t .branchTargetOutOfRange target

/-- HALT and ERR (R125, R126): "set counter to end-of-stream"; ERR also reports ERR. Nothing else
changes, and the terminal condition then holds. -/
def Obligations.HaltAndErrGoToTheEnd : Prop :=
  ∀ (s : State) (w : Bool), s.AtBoundary →
    (exec (Instr.halt.aloneOrWide w) s = .next { s with pc := s.textSize }) ∧
    (∃ t, exec (Instr.err.aloneOrWide w) s = .next t ∧ s.Ends t s.textSize s.operands [.err] ∧
      s.SameChannels t ∧ s.SameEntriesBut t [] ∧ t.terminal = true ∧ t.errorTerminal = true)

/-! ### Constants and locals -/

/-- LDC_W (R140): "push `constant_pool[index]`", the whole word. -/
def Obligations.LdcWPushesTheConstant : Prop :=
  ∀ (s : State) (w : Bool) (cidx : Half) (c : Word), s.AtBoundary →
    s.queryConstant cidx.toNat = some c →
    ∃ t, exec ((Instr.ldcW cidx).aloneOrWide w) s = .next t ∧
      s.Ends t (ownOpcode s.pc w + 3) (pushOn s.cfg.stackCap c s.operands)
        (pushReports s.cfg.stackCap s.depth) ∧ s.SameChannels t

/-- ILOAD (R141, R144): "push local slot", the whole word; the narrow index is one unsigned byte, the
wide one two. -/
def Obligations.IloadPushesTheLocal : Prop :=
  ∀ s : State, s.AtBoundary →
    (∀ v : Byte, s.lv + v.toNat < s.cfg.stackCap → ∃ t, exec (.iload v) s = .next t ∧
      s.Ends t (s.pc + 2) (pushOn s.cfg.stackCap (s.entry (s.lv + v.toNat)) s.operands)
        (pushReports s.cfg.stackCap s.depth) ∧ s.SameChannels t) ∧
    (∀ v : Half, s.lv + v.toNat < s.cfg.stackCap → ∃ t, exec (.wideIload v) s = .next t ∧
      s.Ends t (s.pc + 4) (pushOn s.cfg.stackCap (s.entry (s.lv + v.toNat)) s.operands)
        (pushReports s.cfg.stackCap s.depth) ∧ s.SameChannels t)

/-- ISTORE (R142, R144): "pop value (sign-narrowed to 8 bits then sign-extended back before storing)"
into the slot; every other entry is as it was, the popped one too (decision D7) unless it is the slot. -/
def Obligations.IstoreStoresTheNarrowedWord : Prop :=
  ∀ s : State, s.AtBoundary →
    (∀ v : Byte, s.lv + v.toNat < s.cfg.stackCap → ∃ t, exec (.istore v) s = .next t ∧
      s.Finishes t (s.pc + 2) (popReports 1 s.depth) ∧ t.sp = max (s.sp - 1) (-1) ∧
      (t.entry (s.lv + v.toNat)).toInt = ((s.operand 0).setWidth 8).toInt ∧
      s.SameEntriesBut t [s.lv + v.toNat] ∧ s.SameChannels t) ∧
    (∀ v : Half, s.lv + v.toNat < s.cfg.stackCap → ∃ t, exec (.wideIstore v) s = .next t ∧
      s.Finishes t (s.pc + 4) (popReports 1 s.depth) ∧ t.sp = max (s.sp - 1) (-1) ∧
      (t.entry (s.lv + v.toNat)).toInt = ((s.operand 0).setWidth 8).toInt ∧
      s.SameEntriesBut t [s.lv + v.toNat] ∧ s.SameChannels t)

/-- IINC (R143, R144): "add to local slot in place", the increment one signed byte under the prefix
too; that the sum wraps modulo 2^32 is decision D18. -/
def Obligations.IincAddsInPlace : Prop :=
  ∀ (s : State) (c : Byte), s.AtBoundary →
    (∀ v : Byte, s.lv + v.toNat < s.cfg.stackCap → ∃ t, exec (.iinc v c) s = .next t ∧
      s.Finishes t (s.pc + 3) [] ∧ t.sp = s.sp ∧
      t.entry (s.lv + v.toNat)
        = BitVec.ofInt 32 ((s.entry (s.lv + v.toNat)).toInt + c.toInt) ∧
      s.SameEntriesBut t [s.lv + v.toNat] ∧ s.SameChannels t) ∧
    (∀ v : Half, s.lv + v.toNat < s.cfg.stackCap → ∃ t, exec (.wideIinc v c) s = .next t ∧
      s.Finishes t (s.pc + 5) [] ∧ t.sp = s.sp ∧
      t.entry (s.lv + v.toNat)
        = BitVec.ofInt 32 ((s.entry (s.lv + v.toNat)).toInt + c.toInt) ∧
      s.SameEntriesBut t [s.lv + v.toNat] ∧ s.SameChannels t)

/-- An index outside its space faults and nothing is pushed or popped: LDC_W outside the pool, with the
unsigned index (R140, decision D10); ILOAD, ISTORE and IINC outside the storage, narrow and wide, with
the slot number (R145, decision D11). -/
def Obligations.IndicesOutOfRangeFault : Prop :=
  ∀ (s : State) (c : Byte),
    (∀ (w : Bool) (x : Half), s.cpCount ≤ x.toNat →
      ∃ t, exec ((Instr.ldcW x).aloneOrWide w) s = .next t ∧
        s.Raised t .constIndexOutOfRange x.toNat) ∧
    (∀ v : Byte, s.cfg.stackCap ≤ s.lv + v.toNat →
      ∀ i ∈ [Instr.iload v, .istore v, .iinc v c],
        ∃ t, exec i s = .next t ∧ s.Raised t .localIndexOutOfRange (s.lv + v.toNat : Nat)) ∧
    (∀ v : Half, s.cfg.stackCap ≤ s.lv + v.toNat →
      ∀ i ∈ [Instr.wideIload v, .wideIstore v, .wideIinc v c],
        ∃ t, exec i s = .next t ∧ s.Raised t .localIndexOutOfRange (s.lv + v.toNat : Nat))

/-! ### Input and output -/

/-- IN with a byte waiting (R161, R163): the byte is consumed and pushed zero-extended (decision D17),
or lost with OVF on a full stack. -/
def Obligations.InPushesTheNextByte : Prop :=
  ∀ (s : State) (w : Bool) (c : Byte) (rest : List Byte), s.AtBoundary → s.input = c :: rest →
    ∃ t, exec (Instr.in_.aloneOrWide w) s = .next t ∧
      s.Ends t (ownOpcode s.pc w + 1) (pushOn s.cfg.stackCap (BitVec.ofNat 32 c.toNat) s.operands)
        (pushReports s.cfg.stackCap s.depth) ∧
      t.input = rest ∧ t.inputClosed = s.inputClosed ∧ t.output = s.output

/-- IN at end of input (R163): "two pushes on EOF: the sentinel and a zero", each dropped separately on
a full stack. That a closed source keeps answering the end-marker is decision D17. -/
def Obligations.InAtTheEndPushesSentinelAndZero : Prop :=
  ∀ (s : State) (w : Bool), s.AtBoundary → s.input = [] → s.inputClosed = true →
    let once := pushOn s.cfg.stackCap s.cfg.eofSentinel s.operands
    ∃ t, exec (Instr.in_.aloneOrWide w) s = .next t ∧
      s.Ends t (ownOpcode s.pc w + 1) (pushOn s.cfg.stackCap 0 once)
        (pushReports s.cfg.stackCap s.depth ++ pushReports s.cfg.stackCap once.length) ∧
      s.SameChannels t

/-- IN is held exactly while the source has no answer, and a move of the environment lifts the hold:
after a byte arrives, or the source is closed, the same instruction completes (R161, U16; log 8). -/
def Obligations.InIsHeldUntilTheSourceAnswers : Prop :=
  ∀ (s : State) (w : Bool),
    (exec (Instr.in_.aloneOrWide w) s = .fault .heldForInput ↔
      s.input = [] ∧ s.inputClosed = false) ∧
    (∀ c : Byte, s.inputClosed = false →
      ∃ t, exec (Instr.in_.aloneOrWide w) (s.byteArrives c) = .next t) ∧
    ∃ t, exec (Instr.in_.aloneOrWide w) s.closeInput = .next t

/-- OUT (R164): "pop value, write low byte to external output collaborator"; on an empty stack the byte
0 is written and UNF reported. -/
def Obligations.OutWritesTheLowByte : Prop :=
  ∀ (s : State) (w : Bool), s.AtBoundary →
    ∃ t, exec (Instr.out.aloneOrWide w) s = .next t ∧
      s.Ends t (ownOpcode s.pc w + 1) (s.operands.drop 1) (popReports 1 s.depth) ∧
      t.input = s.input ∧ t.inputClosed = s.inputClosed ∧
      t.output = s.output ++ [BitVec.ofNat 8 (s.operand 0).toNat]

/-! ### The prefix -/

/-- WIDE WIDE (R86, decision D14): `NestedPrefix` with the index of the second prefix byte. -/
def Obligations.NestedPrefixFaults : Prop :=
  ∀ s : State, ∃ t, exec .wideWide s = .next t ∧ s.Raised t .nestedPrefix (s.pc + 1)

/-- WIDE before an instruction whose format it keeps (R85, derived by the spec): the same as that
instruction started at the byte after the prefix, but that a fault is recorded with the prefix byte's
index and leaves `pc` there (R176). -/
def Obligations.WideKeepsTheCoveredInstruction : Prop :=
  ∀ (s : State) (c : Instr), c.keepsFormat = true → s.wide = false → s.fault = none →
    (∀ t, exec c { s with pc := s.pc + 1 } = .next t → t.fault = none →
      exec (.wide c) s = .next t) ∧
    (∀ t f, exec c { s with pc := s.pc + 1 } = .next t → t.fault = some f →
      ∃ u, exec (.wide c) s = .next u ∧ s.Raised u f.cause f.info) ∧
    (∀ r, exec c { s with pc := s.pc + 1 } = .fault r → exec (.wide c) s = .fault r)

/-! ### Frames of the stack storage. That a pop clears nothing is the spec's decision D7. -/

/-- Instructions that store no word leave every entry: NOP, POP, the branches, HALT, ERR, OUT, WIDE
WIDE, an unrecognized byte. -/
def Obligations.StorelessInstructionsKeepEveryEntry : Prop :=
  ∀ (s t : State) (i : Instr), i.storeShape = .nothing → exec i s = .next t →
    s.SameEntriesBut t []

/-- BIPUSH, LDC_W, DUP, ILOAD store to the entry above the old top and to no other, and to none on a
full stack. -/
def Obligations.PushingInstructionsStoreAboveTheTop : Prop :=
  ∀ (s t : State) (i : Instr), i.storeShape = .push → exec i s = .next t →
    s.SameEntriesBut t (if s.sp = s.cfg.stackCap - 1 then [] else [(s.sp + 1).toNat])

/-- IADD, ISUB, IAND, IOR store to the entry above what two pops leave; SWAP to the two entries there,
or to the first of them alone with `STACK_CAP = 1`. -/
def Obligations.TwoOperandInstructionsStoreAboveTheRest : Prop :=
  ∀ (s t : State) (i : Instr), s.AtBoundary → exec i s = .next t →
    let below : Int := max (s.sp - 2) (-1)
    (i.storeShape = .twoOperands → s.SameEntriesBut t [(below + 1).toNat]) ∧
    (i.storeShape = .swap → s.SameEntriesBut t
      (if s.cfg.stackCap = 1 then [(below + 1).toNat]
        else [(below + 1).toNat, (below + 2).toNat]))

/-- IN stores to the entry above the top, and at end of input to the one above that too, as far as
there is room. -/
def Obligations.InStoresAboveTheTop : Prop :=
  ∀ (s t : State) (i : Instr), s.AtBoundary → i.storeShape = .input → exec i s = .next t →
    s.SameEntriesBut t
      ((if s.sp < s.cfg.stackCap - 1 then [(s.sp + 1).toNat] else []) ++
        (if s.input = [] ∧ s.sp < s.cfg.stackCap - 2 then [(s.sp + 2).toNat] else []))

/-- ISTORE and IINC store to their local slot and to no other entry. -/
def Obligations.LocalStoresStoreToTheirSlot : Prop :=
  ∀ (s t : State) (i : Instr) (v : Nat), i.storeShape = .slot v → exec i s = .next t →
    s.SameEntriesBut t [localSlot s v]

/-- The frame of the registers and channels, for every instruction: parameters, image, `lv` and `wide`
never change, the fault register only by raising a fault that changes nothing else, the input only by
IN and the output only by OUT (R11 to R17 "Written by", R160). -/
def Obligations.InstructionsKeepTheOtherRegisters : Prop :=
  ∀ (s t : State) (i : Instr), s.wide = false → exec i s = .next t →
    s.SameImage t ∧ t.wide = false ∧
    (t.fault = s.fault ∨ ∃ cause info, s.Raised t cause info) ∧
    t.inputClosed = s.inputClosed ∧
    (i.storeShape ≠ .input → t.input = s.input) ∧
    (i ≠ .out → i ≠ .wide .out → t.output = s.output)

/-! ### The run loop and the host's queries -/

/-- `Terminal()` (R90): "return pc >= TEXT_SIZE or text[pc] = OPC.HALT or text[pc] = OPC.ERR". -/
def Obligations.TerminalLooksAtTheByteAtPc : Prop :=
  ∀ s : State, s.terminal = true ↔
    s.textSize ≤ s.pc ∨ s.text[s.pc]? = some s.cfg.opc.halt ∨ s.text[s.pc]? = some s.cfg.opc.err

/-- When `Run` ends without a fault, `Terminal()` is true, and when it ends faulted the fault register
is written (R92, R93). -/
def Obligations.RunEndsInATerminalState : Prop :=
  ∀ (n : Nat) (s t : State),
    (runLoop n s = .halted t → t.fault = none ∧ t.terminal = true ∧ t.status = .halted) ∧
    (runLoop n s = .faulted t → t.fault ≠ none ∧ t.status = .faulted) ∧
    (runLoop n s = .held t → t.status = .running ∧ step t = .fault .heldForInput)

/-- The invariants of R22 hold wherever a run from a state that meets them ends or stands. -/
def Obligations.RunsKeepTheInvariants : Prop :=
  ∀ (n : Nat) (s t : State), s.Inv →
    (runLoop n s = .halted t ∨ runLoop n s = .faulted t ∨ runLoop n s = .held t ∨
      runLoop n s = .outOfFuel t) → t.Inv ∧ s.SameImage t

/-- Under the run loop a HALT or ERR at the top level is never dispatched (R91, derived by the spec):
the run ends with the state as it is, `pc` at that byte; a direct `Step` executes it (R94). -/
def Obligations.RunStopsAtAHaltByte : Prop :=
  ∀ (s : State) (n : Nat), s.fault = none → s.cfg.opc.distinct →
    (s.text[s.pc]? = some s.cfg.opc.halt → runLoop n s = .halted s ∧ s.haltCause = .haltedAtHalt ∧
      step s = .next { s with pc := s.textSize, events := [] }) ∧
    (s.text[s.pc]? = some s.cfg.opc.err → runLoop n s = .halted s ∧ s.haltCause = .haltedAtErr ∧
      ∃ t, step s = .next t ∧ t.pc = s.textSize ∧ t.reported .err = true)

/-- `GOTO 0` branches to itself for ever (R93, R120): no number of steps ends the run. -/
def Obligations.GotoZeroNeverEnds : Prop :=
  ∀ (s : State) (n : Nat) (rest : List Byte), s.fault = none → s.cfg.opc.distinct →
    s.text.drop s.pc = [s.cfg.opc.goto, 0, 0] ++ rest → s.pc < s.textSize →
    ∃ t, runLoop n s = .outOfFuel t ∧ t.pc = s.pc ∧ t.fault = none ∧ t.operands = s.operands ∧
      t.diag = s.diag ∧ (n ≠ 0 → t.events = [])

/-- `HaltCause()` (R174, decision D27). -/
def Obligations.HaltCauseTellsWhereItStands : Prop :=
  ∀ s : State, s.cfg.opc.distinct →
    (∀ f, s.fault = some f → s.haltCause = .faulted f) ∧
    (s.fault = none →
      (s.haltCause = .haltedAtErr ↔ s.text[s.pc]? = some s.cfg.opc.err) ∧
      (s.haltCause = .haltedAtHalt ↔ s.text[s.pc]? = some s.cfg.opc.halt) ∧
      (s.haltCause = .haltedEndErrSeen ↔ s.textSize ≤ s.pc ∧ s.reported .err = true) ∧
      (s.haltCause = .haltedEnd ↔ s.textSize ≤ s.pc ∧ s.reported .err = false) ∧
      (s.haltCause = .running ↔ s.status = .running))

/-! ### The image -/

/-- "encoding a synthetic image …, loading it, and reading back both via the query surface must
reproduce the original words/bytes exactly" (R207), for every image whose lengths fit their fields
(R204), whatever the two origins and the bytes after it (R209, decision D23). -/
def Obligations.LoadReadsBackTheImage : Prop :=
  ∀ (cfg : Config) (o1 o2 : Word) (img : Image) (extra : List Byte) (m : Memory)
    (input : List Byte) (closed : Bool),
    4 * img.cp.length < 2 ^ 32 → img.text.length < 2 ^ 32 →
    ∃ s, boot cfg (imageBytes cfg.magic o1 o2 img ++ extra) m input closed = .ok s ∧
      s = State.resetWith cfg img m input closed ∧ s.queryText = img.text ∧
      ∀ k, s.queryConstant k = img.cp[k]?

/-- Load failures (R205, R208, R209): other first bytes than `MAGIC`, or an image cut short anywhere,
leave no state. -/
def Obligations.BadImagesLeaveNoState : Prop :=
  ∀ (cfg : Config) (o1 o2 : Word) (img : Image) (bytes : List Byte) (m : Memory)
    (input : List Byte) (closed : Bool),
    (∀ a b c d : Byte, word a b c d ≠ cfg.magic →
      boot cfg (a :: b :: c :: d :: bytes) m input closed = .error .badMagic) ∧
    (∀ n, 4 * img.cp.length < 2 ^ 32 → img.text.length < 2 ^ 32 →
      n < 20 + 4 * img.cp.length + img.text.length →
      boot cfg ((imageBytes cfg.magic o1 o2 img).take n) m input closed = .error .tooShort)
end

