-- ==== Sys2Proof/Laws/Decode.lean ====
section
/-! SUPPORT. The small laws of the opcode map, of 16-bit operands and of the reads of the decoder. -/

namespace Sys2Proof

theorem Opcode.mem_all (o : Opcode) : o ∈ Opcode.all := by cases o <;> decide

/-- The opcode found has the byte looked for. -/
theorem OpcodeMap.byteOf_of_find {m : OpcodeMap} {b : Byte} {o : Opcode} (h : m.find b = some o) :
    m.byteOf o = b := by
  have := List.find?_some h
  simpa using this

/-- With distinct bytes (R59) no two opcodes share one. -/
theorem OpcodeMap.byteOf_injective {m : OpcodeMap} (h : m.distinct) {o o' : Opcode}
    (he : m.byteOf o = m.byteOf o') : o = o' :=
  List.inj_on_of_nodup_map h o.mem_all o'.mem_all he

/-- With distinct bytes (R59) the byte of an opcode is found as that opcode. -/
theorem OpcodeMap.find_byteOf {m : OpcodeMap} (h : m.distinct) (o : Opcode) :
    m.find (m.byteOf o) = some o := by
  cases hf : m.find (m.byteOf o) with
  | none =>
    have := List.find?_eq_none.1 hf o o.mem_all
    simp at this
  | some o' => rw [m.byteOf_injective h (m.byteOf_of_find hf)]

theorem half_hi_lo (x : Half) : half (Half.hi x) (Half.lo x) = x := by
  unfold half Half.hi Half.lo
  ext i hi
  simp only [BitVec.getElem_append, BitVec.getElem_extractLsb']
  split
  · simp [BitVec.getLsbD_eq_getElem hi]
  · have : 8 + (i - 8) = i := by omega
    simp [this, BitVec.getLsbD_eq_getElem hi]

@[simp] theorem hi_half (a b : Byte) : Half.hi (half a b) = a := by
  unfold half Half.hi
  ext i hi
  rw [BitVec.getElem_extractLsb']
  exact BitVec.getLsbD_append.trans (by simp [BitVec.getLsbD_eq_getElem hi])

@[simp] theorem lo_half (a b : Byte) : Half.lo (half a b) = b := by
  unfold half Half.lo
  ext i hi
  rw [BitVec.getElem_extractLsb']
  exact BitVec.getLsbD_append.trans (by simp [hi])

@[simp] theorem readByte_cons (b : Byte) (r : List Byte) (off : Nat)
    (k : Byte → List Byte → Decoded) : readByte (b :: r) off k = k b r := rfl

@[simp] theorem readByte_nil (off : Nat) (k : Byte → List Byte → Decoded) :
    readByte [] off k = .truncated off := rfl

@[simp] theorem readHalf_cons (a b : Byte) (r : List Byte) (off : Nat)
    (k : Half → List Byte → Decoded) : readHalf (a :: b :: r) off k = k (half a b) r := rfl

/-- A one-byte read that answers an instruction has read a byte. -/
theorem readByte_ok {l : List Byte} {off : Nat} {k : Byte → List Byte → Decoded} {i : Instr}
    {rest : List Byte} (h : readByte l off k = .ok i rest) :
    ∃ b r, l = b :: r ∧ k b r = .ok i rest := by
  cases l with
  | nil => cases h
  | cons b r => exact ⟨b, r, rfl, h⟩

/-- A two-byte read that answers an instruction has read two bytes. -/
theorem readHalf_ok {l : List Byte} {off : Nat} {k : Half → List Byte → Decoded} {i : Instr}
    {rest : List Byte} (h : readHalf l off k = .ok i rest) :
    ∃ a b r, l = a :: b :: r ∧ k (half a b) r = .ok i rest := by
  rcases l with - | ⟨a, - | ⟨b, r⟩⟩
  · cases h
  · cases h
  · exact ⟨a, b, r, rfl, h⟩

end Sys2Proof
end

