-- ==== Sys2Proof/Laws/State.lean ====
section
/-! SUPPORT. One lemma per field of the state per update of it, so that no later proof unfolds a
record update. -/

namespace Sys2Proof.Machine.State

variable (s : State)

/-! ### `setPc` -/

@[simp] theorem setPc_cfg (t : Nat) : (s.setPc t).cfg = s.cfg := rfl
@[simp] theorem setPc_text (t : Nat) : (s.setPc t).text = s.text := rfl
@[simp] theorem setPc_cp (t : Nat) : (s.setPc t).cp = s.cp := rfl
@[simp] theorem setPc_pc (t : Nat) : (s.setPc t).pc = t := rfl
@[simp] theorem setPc_sp (t : Nat) : (s.setPc t).sp = s.sp := rfl
@[simp] theorem setPc_stk (t : Nat) : (s.setPc t).stk = s.stk := rfl
@[simp] theorem setPc_lv (t : Nat) : (s.setPc t).lv = s.lv := rfl
@[simp] theorem setPc_wide (t : Nat) : (s.setPc t).wide = s.wide := rfl
@[simp] theorem setPc_diag (t : Nat) : (s.setPc t).diag = s.diag := rfl
@[simp] theorem setPc_fault (t : Nat) : (s.setPc t).fault = s.fault := rfl
@[simp] theorem setPc_events (t : Nat) : (s.setPc t).events = s.events := rfl
@[simp] theorem setPc_input (t : Nat) : (s.setPc t).input = s.input := rfl
@[simp] theorem setPc_inputClosed (t : Nat) : (s.setPc t).inputClosed = s.inputClosed := rfl
@[simp] theorem setPc_output (t : Nat) : (s.setPc t).output = s.output := rfl

/-! ### `advance` -/

@[simp] theorem advance_cfg (n : Nat) : (s.advance n).cfg = s.cfg := rfl
@[simp] theorem advance_text (n : Nat) : (s.advance n).text = s.text := rfl
@[simp] theorem advance_cp (n : Nat) : (s.advance n).cp = s.cp := rfl
@[simp] theorem advance_pc (n : Nat) : (s.advance n).pc = s.pc + n := rfl
@[simp] theorem advance_sp (n : Nat) : (s.advance n).sp = s.sp := rfl
@[simp] theorem advance_stk (n : Nat) : (s.advance n).stk = s.stk := rfl
@[simp] theorem advance_lv (n : Nat) : (s.advance n).lv = s.lv := rfl
@[simp] theorem advance_wide (n : Nat) : (s.advance n).wide = s.wide := rfl
@[simp] theorem advance_diag (n : Nat) : (s.advance n).diag = s.diag := rfl
@[simp] theorem advance_fault (n : Nat) : (s.advance n).fault = s.fault := rfl
@[simp] theorem advance_events (n : Nat) : (s.advance n).events = s.events := rfl
@[simp] theorem advance_input (n : Nat) : (s.advance n).input = s.input := rfl
@[simp] theorem advance_inputClosed (n : Nat) : (s.advance n).inputClosed = s.inputClosed := rfl
@[simp] theorem advance_output (n : Nat) : (s.advance n).output = s.output := rfl

/-! ### `setSp` -/

@[simp] theorem setSp_cfg (v : Int) : (s.setSp v).cfg = s.cfg := rfl
@[simp] theorem setSp_text (v : Int) : (s.setSp v).text = s.text := rfl
@[simp] theorem setSp_cp (v : Int) : (s.setSp v).cp = s.cp := rfl
@[simp] theorem setSp_pc (v : Int) : (s.setSp v).pc = s.pc := rfl
@[simp] theorem setSp_sp (v : Int) : (s.setSp v).sp = v := rfl
@[simp] theorem setSp_stk (v : Int) : (s.setSp v).stk = s.stk := rfl
@[simp] theorem setSp_lv (v : Int) : (s.setSp v).lv = s.lv := rfl
@[simp] theorem setSp_wide (v : Int) : (s.setSp v).wide = s.wide := rfl
@[simp] theorem setSp_diag (v : Int) : (s.setSp v).diag = s.diag := rfl
@[simp] theorem setSp_fault (v : Int) : (s.setSp v).fault = s.fault := rfl
@[simp] theorem setSp_events (v : Int) : (s.setSp v).events = s.events := rfl
@[simp] theorem setSp_input (v : Int) : (s.setSp v).input = s.input := rfl
@[simp] theorem setSp_inputClosed (v : Int) : (s.setSp v).inputClosed = s.inputClosed := rfl
@[simp] theorem setSp_output (v : Int) : (s.setSp v).output = s.output := rfl

/-! ### `setWide` -/

@[simp] theorem setWide_cfg (b : Bool) : (s.setWide b).cfg = s.cfg := rfl
@[simp] theorem setWide_text (b : Bool) : (s.setWide b).text = s.text := rfl
@[simp] theorem setWide_cp (b : Bool) : (s.setWide b).cp = s.cp := rfl
@[simp] theorem setWide_pc (b : Bool) : (s.setWide b).pc = s.pc := rfl
@[simp] theorem setWide_sp (b : Bool) : (s.setWide b).sp = s.sp := rfl
@[simp] theorem setWide_stk (b : Bool) : (s.setWide b).stk = s.stk := rfl
@[simp] theorem setWide_lv (b : Bool) : (s.setWide b).lv = s.lv := rfl
@[simp] theorem setWide_wide (b : Bool) : (s.setWide b).wide = b := rfl
@[simp] theorem setWide_diag (b : Bool) : (s.setWide b).diag = s.diag := rfl
@[simp] theorem setWide_fault (b : Bool) : (s.setWide b).fault = s.fault := rfl
@[simp] theorem setWide_events (b : Bool) : (s.setWide b).events = s.events := rfl
@[simp] theorem setWide_input (b : Bool) : (s.setWide b).input = s.input := rfl
@[simp] theorem setWide_inputClosed (b : Bool) : (s.setWide b).inputClosed = s.inputClosed := rfl
@[simp] theorem setWide_output (b : Bool) : (s.setWide b).output = s.output := rfl

/-! ### `setEntry` -/

@[simp] theorem setEntry_cfg (i : Nat) (v : Word) : (s.setEntry i v).cfg = s.cfg := rfl
@[simp] theorem setEntry_text (i : Nat) (v : Word) : (s.setEntry i v).text = s.text := rfl
@[simp] theorem setEntry_cp (i : Nat) (v : Word) : (s.setEntry i v).cp = s.cp := rfl
@[simp] theorem setEntry_pc (i : Nat) (v : Word) : (s.setEntry i v).pc = s.pc := rfl
@[simp] theorem setEntry_sp (i : Nat) (v : Word) : (s.setEntry i v).sp = s.sp := rfl
@[simp] theorem setEntry_stk (i : Nat) (v : Word) : (s.setEntry i v).stk = Memory.write s.stk i v := rfl
@[simp] theorem setEntry_lv (i : Nat) (v : Word) : (s.setEntry i v).lv = s.lv := rfl
@[simp] theorem setEntry_wide (i : Nat) (v : Word) : (s.setEntry i v).wide = s.wide := rfl
@[simp] theorem setEntry_diag (i : Nat) (v : Word) : (s.setEntry i v).diag = s.diag := rfl
@[simp] theorem setEntry_fault (i : Nat) (v : Word) : (s.setEntry i v).fault = s.fault := rfl
@[simp] theorem setEntry_events (i : Nat) (v : Word) : (s.setEntry i v).events = s.events := rfl
@[simp] theorem setEntry_input (i : Nat) (v : Word) : (s.setEntry i v).input = s.input := rfl
@[simp] theorem setEntry_inputClosed (i : Nat) (v : Word) : (s.setEntry i v).inputClosed = s.inputClosed := rfl
@[simp] theorem setEntry_output (i : Nat) (v : Word) : (s.setEntry i v).output = s.output := rfl

/-! ### `report` -/

@[simp] theorem report_cfg (d : Diagnostic) : (s.report d).cfg = s.cfg := rfl
@[simp] theorem report_text (d : Diagnostic) : (s.report d).text = s.text := rfl
@[simp] theorem report_cp (d : Diagnostic) : (s.report d).cp = s.cp := rfl
@[simp] theorem report_pc (d : Diagnostic) : (s.report d).pc = s.pc := rfl
@[simp] theorem report_sp (d : Diagnostic) : (s.report d).sp = s.sp := rfl
@[simp] theorem report_stk (d : Diagnostic) : (s.report d).stk = s.stk := rfl
@[simp] theorem report_lv (d : Diagnostic) : (s.report d).lv = s.lv := rfl
@[simp] theorem report_wide (d : Diagnostic) : (s.report d).wide = s.wide := rfl
@[simp] theorem report_diag (d : Diagnostic) : (s.report d).diag = s.diag ||| d.mask := rfl
@[simp] theorem report_fault (d : Diagnostic) : (s.report d).fault = s.fault := rfl
@[simp] theorem report_events (d : Diagnostic) : (s.report d).events = s.events ++ [d] := rfl
@[simp] theorem report_input (d : Diagnostic) : (s.report d).input = s.input := rfl
@[simp] theorem report_inputClosed (d : Diagnostic) : (s.report d).inputClosed = s.inputClosed := rfl
@[simp] theorem report_output (d : Diagnostic) : (s.report d).output = s.output := rfl

/-! ### `beginStep` -/

@[simp] theorem beginStep_cfg : (s.beginStep).cfg = s.cfg := rfl
@[simp] theorem beginStep_text : (s.beginStep).text = s.text := rfl
@[simp] theorem beginStep_cp : (s.beginStep).cp = s.cp := rfl
@[simp] theorem beginStep_pc : (s.beginStep).pc = s.pc := rfl
@[simp] theorem beginStep_sp : (s.beginStep).sp = s.sp := rfl
@[simp] theorem beginStep_stk : (s.beginStep).stk = s.stk := rfl
@[simp] theorem beginStep_lv : (s.beginStep).lv = s.lv := rfl
@[simp] theorem beginStep_wide : (s.beginStep).wide = s.wide := rfl
@[simp] theorem beginStep_diag : (s.beginStep).diag = s.diag := rfl
@[simp] theorem beginStep_fault : (s.beginStep).fault = s.fault := rfl
@[simp] theorem beginStep_events : (s.beginStep).events = [] := rfl
@[simp] theorem beginStep_input : (s.beginStep).input = s.input := rfl
@[simp] theorem beginStep_inputClosed : (s.beginStep).inputClosed = s.inputClosed := rfl
@[simp] theorem beginStep_output : (s.beginStep).output = s.output := rfl

/-! ### `outWrite` -/

@[simp] theorem outWrite_cfg (b : Byte) : (s.outWrite b).cfg = s.cfg := rfl
@[simp] theorem outWrite_text (b : Byte) : (s.outWrite b).text = s.text := rfl
@[simp] theorem outWrite_cp (b : Byte) : (s.outWrite b).cp = s.cp := rfl
@[simp] theorem outWrite_pc (b : Byte) : (s.outWrite b).pc = s.pc := rfl
@[simp] theorem outWrite_sp (b : Byte) : (s.outWrite b).sp = s.sp := rfl
@[simp] theorem outWrite_stk (b : Byte) : (s.outWrite b).stk = s.stk := rfl
@[simp] theorem outWrite_lv (b : Byte) : (s.outWrite b).lv = s.lv := rfl
@[simp] theorem outWrite_wide (b : Byte) : (s.outWrite b).wide = s.wide := rfl
@[simp] theorem outWrite_diag (b : Byte) : (s.outWrite b).diag = s.diag := rfl
@[simp] theorem outWrite_fault (b : Byte) : (s.outWrite b).fault = s.fault := rfl
@[simp] theorem outWrite_events (b : Byte) : (s.outWrite b).events = s.events := rfl
@[simp] theorem outWrite_input (b : Byte) : (s.outWrite b).input = s.input := rfl
@[simp] theorem outWrite_inputClosed (b : Byte) : (s.outWrite b).inputClosed = s.inputClosed := rfl
@[simp] theorem outWrite_output (b : Byte) : (s.outWrite b).output = s.output ++ [b] := rfl

/-! ### `raiseFault` -/

@[simp] theorem raiseFault_cfg (c : FaultCause) (info : Int) : (s.raiseFault c info).cfg = s.cfg := rfl
@[simp] theorem raiseFault_text (c : FaultCause) (info : Int) : (s.raiseFault c info).text = s.text := rfl
@[simp] theorem raiseFault_cp (c : FaultCause) (info : Int) : (s.raiseFault c info).cp = s.cp := rfl
@[simp] theorem raiseFault_pc (c : FaultCause) (info : Int) : (s.raiseFault c info).pc = s.pc := rfl
@[simp] theorem raiseFault_sp (c : FaultCause) (info : Int) : (s.raiseFault c info).sp = s.sp := rfl
@[simp] theorem raiseFault_stk (c : FaultCause) (info : Int) : (s.raiseFault c info).stk = s.stk := rfl
@[simp] theorem raiseFault_lv (c : FaultCause) (info : Int) : (s.raiseFault c info).lv = s.lv := rfl
@[simp] theorem raiseFault_wide (c : FaultCause) (info : Int) : (s.raiseFault c info).wide = s.wide := rfl
@[simp] theorem raiseFault_diag (c : FaultCause) (info : Int) : (s.raiseFault c info).diag = s.diag := rfl
@[simp] theorem raiseFault_fault (c : FaultCause) (info : Int) : (s.raiseFault c info).fault = some ⟨c, s.pc, info⟩ := rfl
@[simp] theorem raiseFault_events (c : FaultCause) (info : Int) : (s.raiseFault c info).events = [] := rfl
@[simp] theorem raiseFault_input (c : FaultCause) (info : Int) : (s.raiseFault c info).input = s.input := rfl
@[simp] theorem raiseFault_inputClosed (c : FaultCause) (info : Int) : (s.raiseFault c info).inputClosed = s.inputClosed := rfl
@[simp] theorem raiseFault_output (c : FaultCause) (info : Int) : (s.raiseFault c info).output = s.output := rfl

/-! ### `setInput` -/

@[simp] theorem setInput_cfg (l : List Byte) : (s.setInput l).cfg = s.cfg := rfl
@[simp] theorem setInput_text (l : List Byte) : (s.setInput l).text = s.text := rfl
@[simp] theorem setInput_cp (l : List Byte) : (s.setInput l).cp = s.cp := rfl
@[simp] theorem setInput_pc (l : List Byte) : (s.setInput l).pc = s.pc := rfl
@[simp] theorem setInput_sp (l : List Byte) : (s.setInput l).sp = s.sp := rfl
@[simp] theorem setInput_stk (l : List Byte) : (s.setInput l).stk = s.stk := rfl
@[simp] theorem setInput_lv (l : List Byte) : (s.setInput l).lv = s.lv := rfl
@[simp] theorem setInput_wide (l : List Byte) : (s.setInput l).wide = s.wide := rfl
@[simp] theorem setInput_diag (l : List Byte) : (s.setInput l).diag = s.diag := rfl
@[simp] theorem setInput_fault (l : List Byte) : (s.setInput l).fault = s.fault := rfl
@[simp] theorem setInput_events (l : List Byte) : (s.setInput l).events = s.events := rfl
@[simp] theorem setInput_input (l : List Byte) : (s.setInput l).input = l := rfl
@[simp] theorem setInput_inputClosed (l : List Byte) : (s.setInput l).inputClosed = s.inputClosed := rfl
@[simp] theorem setInput_output (l : List Byte) : (s.setInput l).output = s.output := rfl
@[simp] theorem setInput_textSize (l : List Byte) : (s.setInput l).textSize = s.textSize := rfl
@[simp] theorem setInput_entry (l : List Byte) (k : Nat) : (s.setInput l).entry k = s.entry k := rfl
@[simp] theorem setInput_reported (l : List Byte) (d : Diagnostic) :
    (s.setInput l).reported d = s.reported d := rfl

/-! ### Reset -/

variable (c : Config) (img : Image) (m : Memory) (inp : List Byte) (b : Bool)

@[simp] theorem resetWith_cfg : (resetWith c img m inp b).cfg = c := rfl
@[simp] theorem resetWith_text : (resetWith c img m inp b).text = img.text := rfl
@[simp] theorem resetWith_cp : (resetWith c img m inp b).cp = img.cp := rfl
@[simp] theorem resetWith_pc : (resetWith c img m inp b).pc = 0 := rfl
@[simp] theorem resetWith_sp : (resetWith c img m inp b).sp = -1 := rfl
@[simp] theorem resetWith_stk : (resetWith c img m inp b).stk = m := rfl
@[simp] theorem resetWith_lv : (resetWith c img m inp b).lv = c.lvReset := rfl
@[simp] theorem resetWith_wide : (resetWith c img m inp b).wide = false := rfl
@[simp] theorem resetWith_diag : (resetWith c img m inp b).diag = 0 := rfl
@[simp] theorem resetWith_fault : (resetWith c img m inp b).fault = none := rfl
@[simp] theorem resetWith_events : (resetWith c img m inp b).events = [] := rfl
@[simp] theorem resetWith_input : (resetWith c img m inp b).input = inp := rfl
@[simp] theorem resetWith_inputClosed : (resetWith c img m inp b).inputClosed = b := rfl
@[simp] theorem resetWith_output : (resetWith c img m inp b).output = [] := rfl

/-! ### Derived readings through each update -/

@[simp] theorem setPc_textSize (t : Nat) : (s.setPc t).textSize = s.textSize := rfl
@[simp] theorem setPc_entry (t : Nat) (k : Nat) : (s.setPc t).entry k = s.entry k := rfl
@[simp] theorem advance_textSize (n : Nat) : (s.advance n).textSize = s.textSize := rfl
@[simp] theorem advance_entry (n : Nat) (k : Nat) : (s.advance n).entry k = s.entry k := rfl
@[simp] theorem setSp_textSize (v : Int) : (s.setSp v).textSize = s.textSize := rfl
@[simp] theorem setSp_entry (v : Int) (k : Nat) : (s.setSp v).entry k = s.entry k := rfl
@[simp] theorem setWide_textSize (b : Bool) : (s.setWide b).textSize = s.textSize := rfl
@[simp] theorem setWide_entry (b : Bool) (k : Nat) : (s.setWide b).entry k = s.entry k := rfl
@[simp] theorem setEntry_textSize (i : Nat) (v : Word) : (s.setEntry i v).textSize = s.textSize := rfl
@[simp] theorem report_textSize (d : Diagnostic) : (s.report d).textSize = s.textSize := rfl
@[simp] theorem report_entry (d : Diagnostic) (k : Nat) : (s.report d).entry k = s.entry k := rfl
@[simp] theorem beginStep_textSize : (s.beginStep).textSize = s.textSize := rfl
@[simp] theorem beginStep_entry (k : Nat) : (s.beginStep).entry k = s.entry k := rfl
@[simp] theorem outWrite_textSize (b : Byte) : (s.outWrite b).textSize = s.textSize := rfl
@[simp] theorem outWrite_entry (b : Byte) (k : Nat) : (s.outWrite b).entry k = s.entry k := rfl
@[simp] theorem raiseFault_textSize (c : FaultCause) (info : Int) : (s.raiseFault c info).textSize = s.textSize := rfl
@[simp] theorem raiseFault_entry (c : FaultCause) (info : Int) (k : Nat) : (s.raiseFault c info).entry k = s.entry k := rfl
@[simp] theorem setPc_reported (t : Nat) (d : Diagnostic) :
    (s.setPc t).reported d = s.reported d := rfl
@[simp] theorem advance_reported (n : Nat) (d : Diagnostic) :
    (s.advance n).reported d = s.reported d := rfl
@[simp] theorem setSp_reported (v : Int) (d : Diagnostic) :
    (s.setSp v).reported d = s.reported d := rfl
@[simp] theorem setWide_reported (b : Bool) (d : Diagnostic) :
    (s.setWide b).reported d = s.reported d := rfl
@[simp] theorem setEntry_reported (i : Nat) (v : Word) (d : Diagnostic) :
    (s.setEntry i v).reported d = s.reported d := rfl
@[simp] theorem beginStep_reported (d : Diagnostic) :
    (s.beginStep).reported d = s.reported d := rfl
@[simp] theorem outWrite_reported (b : Byte) (d : Diagnostic) :
    (s.outWrite b).reported d = s.reported d := rfl
@[simp] theorem raiseFault_reported (c : FaultCause) (info : Int) (d : Diagnostic) :
    (s.raiseFault c info).reported d = s.reported d := rfl

end Sys2Proof.Machine.State
end

