-- ==== Sys2Proof/Laws/Memory.lean ====
section
/-! SUPPORT. The laws of stack storage: a read after a write, and the canonical form, which every
memory operation keeps. -/

namespace Sys2Proof.Machine.Memory

theorem read_eq_unlisted {m : Memory} {i : Nat} (h : ∀ c ∈ m, c.1 ≠ i) :
    read m i = unlistedEntry := by
  induction m with
  | nil => rfl
  | cons c m ih =>
    simp only [read]
    rw [if_neg (h c (by simp)), ih fun d hd => h d (by simp [hd])]

theorem mem_erase {m : Memory} {i : Nat} {c : Nat × Word} :
    c ∈ erase m i ↔ c ∈ m ∧ c.1 ≠ i := by
  simp [erase]

theorem read_erase_self (m : Memory) (i : Nat) : read (erase m i) i = unlistedEntry :=
  read_eq_unlisted fun _ hc => (mem_erase.1 hc).2

theorem read_erase_of_ne (m : Memory) {i j : Nat} (h : j ≠ i) : read (erase m i) j = read m j := by
  induction m with
  | nil => rfl
  | cons c m ih =>
    unfold erase at ih ⊢
    by_cases hc : c.1 = i
    · simp [hc, ih, read, Ne.symm h]
    · simp [hc, ih, read]

theorem mem_insert {m : Memory} {i : Nat} {v : Word} {c : Nat × Word} :
    c ∈ insert m i v ↔ c = (i, v) ∨ c ∈ m := by
  induction m with
  | nil => simp [insert]
  | cons d m ih =>
    simp only [insert]
    split
    · simp
    · simp [ih, or_left_comm]

theorem read_insert_self {m : Memory} {i : Nat} (v : Word) (h : ∀ c ∈ m, c.1 ≠ i) :
    read (insert m i v) i = v := by
  induction m with
  | nil => simp [insert, read]
  | cons c m ih =>
    simp only [insert]
    split
    · simp [read]
    · simp [read, h c (by simp), ih fun d hd => h d (by simp [hd])]

theorem read_insert_of_ne (m : Memory) {i j : Nat} (v : Word) (h : j ≠ i) :
    read (insert m i v) j = read m j := by
  induction m with
  | nil => simp [insert, read, Ne.symm h]
  | cons c m ih =>
    simp only [insert]
    split
    · simp [read, Ne.symm h]
    · simp [read, ih]

/-- A read of the written entry gives the word written. -/
@[simp] theorem read_write_self (m : Memory) (i : Nat) (v : Word) : read (write m i v) i = v := by
  unfold write
  split
  · rename_i h; rw [read_erase_self, h]
  · exact read_insert_self v fun _ hc => (mem_erase.1 hc).2

/-- A write leaves every other entry alone. -/
theorem read_write_of_ne (m : Memory) {i j : Nat} (v : Word) (h : j ≠ i) :
    read (write m i v) j = read m j := by
  unfold write
  split
  · exact read_erase_of_ne m h
  · rw [read_insert_of_ne _ v h, read_erase_of_ne m h]

/-- The canonical form of a listing with a head, in terms of membership. -/
theorem wf_cons {c : Nat × Word} {m : Memory} :
    wf (c :: m) = true ↔ c.2 ≠ unlistedEntry ∧ (∀ d ∈ m, c.1 < d.1) ∧ wf m = true := by
  obtain ⟨k, v⟩ := c
  simp [wf, and_assoc]

theorem wf_erase {m : Memory} (i : Nat) (h : wf m = true) : wf (erase m i) = true := by
  induction m with
  | nil => rfl
  | cons c m ih =>
    obtain ⟨hv, hlt, hm⟩ := wf_cons.1 h
    have ih := ih hm
    by_cases hc : c.1 = i
    · simpa [erase, List.filter_cons, hc] using ih
    · have : erase (c :: m) i = c :: erase m i := by simp [erase, hc]
      rw [this]
      exact wf_cons.2 ⟨hv, fun d hd => hlt d (mem_erase.1 hd).1, ih⟩

theorem wf_insert {m : Memory} {i : Nat} {v : Word} (hv : v ≠ unlistedEntry)
    (hi : ∀ c ∈ m, c.1 ≠ i) (h : wf m = true) : wf (insert m i v) = true := by
  induction m with
  | nil => simp [insert, wf, hv]
  | cons c m ih =>
    obtain ⟨hcv, hlt, hm⟩ := wf_cons.1 h
    simp only [insert]
    split
    · rename_i hic
      refine wf_cons.2 ⟨hv, fun d hd => ?_, h⟩
      rcases List.mem_cons.1 hd with rfl | hd
      · exact hic
      · exact hic.trans (hlt d hd)
    · rename_i hic
      refine wf_cons.2 ⟨hcv, fun d hd => ?_, ih (fun d hd => hi d (by simp [hd])) hm⟩
      rcases mem_insert.1 hd with rfl | hd
      · have := hi c (by simp); simp only at *; omega
      · exact hlt d hd

/-- A write keeps the canonical form. -/
theorem wf_write {m : Memory} (i : Nat) (v : Word) (h : wf m = true) : wf (write m i v) = true := by
  unfold write
  split
  · exact wf_erase i h
  · exact wf_insert ‹_› (fun _ hc => (mem_erase.1 hc).2) (wf_erase i h)

/-- In canonical form, what is listed reads as itself. -/
theorem read_of_mem {m : Memory} (h : wf m = true) {c : Nat × Word} (hc : c ∈ m) :
    read m c.1 = c.2 := by
  induction m with
  | nil => cases hc
  | cons d m ih =>
    obtain ⟨-, hlt, hm⟩ := wf_cons.1 h
    rcases List.mem_cons.1 hc with rfl | hc
    · simp [read]
    · have := hlt c hc
      simp [read, show d.1 ≠ c.1 by omega, ih hm hc]

/-- In canonical form, an index that reads as something else than unlisted is listed. -/
theorem mem_of_read {m : Memory} {i : Nat} (h : read m i ≠ unlistedEntry) : (i, read m i) ∈ m := by
  induction m with
  | nil => exact absurd rfl h
  | cons d m ih =>
    obtain ⟨k, v⟩ := d
    simp only [read] at h ⊢
    split
    · rename_i hk; simp [hk]
    · rename_i hk; rw [if_neg hk] at h; simp [ih h]

theorem listed_ne_unlisted {m : Memory} (h : wf m = true) {c : Nat × Word} (hc : c ∈ m) :
    c.2 ≠ unlistedEntry := by
  induction m with
  | nil => cases hc
  | cons d m ih =>
    obtain ⟨hv, -, hm⟩ := wf_cons.1 h
    rcases List.mem_cons.1 hc with rfl | hc
    · exact hv
    · exact ih hm hc

theorem wf_pairwise {m : Memory} (h : wf m = true) : m.Pairwise (fun c d => c.1 < d.1) := by
  induction m with
  | nil => exact .nil
  | cons d m ih =>
    obtain ⟨-, hlt, hm⟩ := wf_cons.1 h
    exact .cons hlt (ih hm)

/-- Two listings in canonical form that read the same everywhere are equal: equal storages are equal
data. -/
theorem eq_of_read_eq {m m' : Memory} (h : wf m = true) (h' : wf m' = true)
    (hr : ∀ k, read m k = read m' k) : m = m' := by
  have sub : ∀ {a b : Memory}, wf a = true → (∀ k, read a k = read b k) → ∀ c ∈ a, c ∈ b := by
    intro a b ha hab c hc
    have hrd := read_of_mem ha hc
    have := mem_of_read (m := b) (i := c.1) (by rw [← hab, hrd]; exact listed_ne_unlisted ha hc)
    rwa [← hab, hrd] at this
  refine List.Perm.eq_of_pairwise (le := fun c d : Nat × Word => c.1 < d.1)
    (fun c d _ _ h1 h2 => absurd (h1.trans h2) (lt_irrefl _)) (wf_pairwise h) (wf_pairwise h') ?_
  have nodup : ∀ {a : Memory}, wf a = true → a.Nodup := fun ha =>
    (wf_pairwise ha).imp fun hlt heq => by rw [heq] at hlt; exact lt_irrefl _ hlt
  exact (List.perm_ext_iff_of_nodup (nodup h) (nodup h')).2 fun c =>
    ⟨sub h hr c, sub h' (fun k => (hr k).symm) c⟩

theorem within_iff {cap : Nat} {m : Memory} : within cap m = true ↔ ∀ c ∈ m, c.1 < cap := by
  simp [within]

/-- A write inside the storage lists nothing outside it. -/
theorem within_write {cap : Nat} {m : Memory} {i : Nat} (v : Word) (hi : i < cap)
    (h : within cap m = true) : within cap (write m i v) = true := by
  rw [within_iff] at *
  intro c hc
  unfold write at hc
  split at hc
  · exact h c (mem_erase.1 hc).1
  · rcases mem_insert.1 hc with rfl | hc
    · exact hi
    · exact h c (mem_erase.1 hc).1

end Sys2Proof.Machine.Memory
end

