-- ==== Sys2Proof/Laws/Ops.lean ====
section
/-! SUPPORT. What each shared operation does, said once: entries, push, pop, peek, the input source,
the branch rule, the local slot, the prefix and the end of an instruction. -/

namespace Sys2Proof.Machine

namespace State

variable (s : State)

/-! ### Entries of stack storage -/

@[simp] theorem setEntry_entry_self (i : Nat) (v : Word) : (s.setEntry i v).entry i = v :=
  Memory.read_write_self s.stk i v

theorem setEntry_entry_of_ne {i k : Nat} (v : Word) (h : k ≠ i) :
    (s.setEntry i v).entry k = s.entry k :=
  Memory.read_write_of_ne s.stk v h

theorem setEntry_entry (i k : Nat) (v : Word) :
    (s.setEntry i v).entry k = if k = i then v else s.entry k := by
  split
  · rename_i h; rw [h, setEntry_entry_self]
  · exact setEntry_entry_of_ne s v ‹_›

/-! ### Diagnostics -/

/-- The bit of `e` in the mask of `d`. -/
theorem mask_getLsbD (d e : Diagnostic) : d.mask.getLsbD e.code = (d == e) := by
  cases d <;> cases e <;> rfl

/-- A report sets its own sticky bit and no other. -/
@[simp] theorem report_reported (d e : Diagnostic) :
    (s.report d).reported e = (s.reported e || d == e) := by
  simp [reported, BitVec.getLsbD_or, mask_getLsbD]

theorem reports_nil_iff {s t : State} :
    Reports s t [] ↔ t.events = s.events ∧ ∀ d, t.reported d = s.reported d := by
  simp [Reports]

/-- A state with the same event list and the same `diag` reports nothing. -/
theorem Reports.refl_of {s t : State} (he : t.events = s.events) (hd : t.diag = s.diag) :
    Reports s t [] := by
  simp [Reports, he, reported, hd]

theorem Reports.trans {s t u : State} {l m : List Diagnostic} (h : Reports s t l)
    (h' : Reports t u m) : Reports s u (l ++ m) := by
  refine ⟨by rw [h'.1, h.1, List.append_assoc], fun d => ?_⟩
  rw [h'.2, h.2, List.contains_eq_mem, List.contains_eq_mem, List.contains_eq_mem]
  simp [Bool.or_assoc]

theorem reports_report (d : Diagnostic) : Reports s (s.report d) [d] := by
  refine ⟨rfl, fun e => ?_⟩
  rw [report_reported]
  cases d <;> cases e <;> rfl

/-! ### `push` (R70) -/

/-- On a full stack: the report and nothing else. -/
theorem push_of_full {s : State} (v : Word) (h : s.sp = s.cfg.stackCap - 1) :
    s.push v = s.report .ovf := if_pos h

/-- With room: `sp` one up, the word there. -/
theorem push_of_room {s : State} (v : Word) (h : s.sp ≠ s.cfg.stackCap - 1) :
    s.push v = (s.setSp (s.sp + 1)).setEntry (s.sp + 1).toNat v := if_neg h

@[simp] theorem push_cfg (v : Word) : (s.push v).cfg = s.cfg := by
  unfold push; split <;> rfl

@[simp] theorem push_text (v : Word) : (s.push v).text = s.text := by
  unfold push; split <;> rfl

@[simp] theorem push_cp (v : Word) : (s.push v).cp = s.cp := by
  unfold push; split <;> rfl

@[simp] theorem push_pc (v : Word) : (s.push v).pc = s.pc := by
  unfold push; split <;> rfl

@[simp] theorem push_lv (v : Word) : (s.push v).lv = s.lv := by
  unfold push; split <;> rfl

@[simp] theorem push_wide (v : Word) : (s.push v).wide = s.wide := by
  unfold push; split <;> rfl

@[simp] theorem push_fault (v : Word) : (s.push v).fault = s.fault := by
  unfold push; split <;> rfl

@[simp] theorem push_input (v : Word) : (s.push v).input = s.input := by
  unfold push; split <;> rfl

@[simp] theorem push_inputClosed (v : Word) : (s.push v).inputClosed = s.inputClosed := by
  unfold push; split <;> rfl

@[simp] theorem push_output (v : Word) : (s.push v).output = s.output := by
  unfold push; split <;> rfl

@[simp] theorem push_textSize (v : Word) : (s.push v).textSize = s.textSize := by
  simp [textSize]

theorem push_sp (v : Word) :
    (s.push v).sp = if s.sp = s.cfg.stackCap - 1 then s.sp else s.sp + 1 := by
  unfold push; split <;> rfl

theorem push_entry (v : Word) (k : Nat) :
    (s.push v).entry k =
      if s.sp ≠ s.cfg.stackCap - 1 ∧ k = (s.sp + 1).toNat then v else s.entry k := by
  unfold push
  split
  · simp [*]
  · simp [*, setEntry_entry]

theorem push_reports (v : Word) :
    Reports s (s.push v) (if s.sp = s.cfg.stackCap - 1 then [.ovf] else []) := by
  unfold push
  split
  · exact reports_report s .ovf
  · exact Reports.refl_of rfl rfl

/-! ### `pop` (R71) -/

/-- On an empty stack: a zero and the report. -/
theorem pop_of_empty {s : State} (h : s.sp = -1) : s.pop = (0, s.report .unf) := if_pos h

/-- On a stack that holds something: the top word, `sp` one down. -/
theorem pop_of_some {s : State} (h : s.sp ≠ -1) :
    s.pop = (s.entry s.sp.toNat, s.setSp (s.sp - 1)) := if_neg h

@[simp] theorem pop_cfg : s.pop.2.cfg = s.cfg := by
  unfold pop; split <;> rfl

@[simp] theorem pop_text : s.pop.2.text = s.text := by
  unfold pop; split <;> rfl

@[simp] theorem pop_cp : s.pop.2.cp = s.cp := by
  unfold pop; split <;> rfl

@[simp] theorem pop_pc : s.pop.2.pc = s.pc := by
  unfold pop; split <;> rfl

@[simp] theorem pop_lv : s.pop.2.lv = s.lv := by
  unfold pop; split <;> rfl

@[simp] theorem pop_wide : s.pop.2.wide = s.wide := by
  unfold pop; split <;> rfl

@[simp] theorem pop_fault : s.pop.2.fault = s.fault := by
  unfold pop; split <;> rfl

@[simp] theorem pop_input : s.pop.2.input = s.input := by
  unfold pop; split <;> rfl

@[simp] theorem pop_inputClosed : s.pop.2.inputClosed = s.inputClosed := by
  unfold pop; split <;> rfl

@[simp] theorem pop_output : s.pop.2.output = s.output := by
  unfold pop; split <;> rfl

@[simp] theorem pop_stk : s.pop.2.stk = s.stk := by
  unfold pop; split <;> rfl

@[simp] theorem pop_textSize : s.pop.2.textSize = s.textSize := by simp [textSize]

/-- `pop` clears no entry. -/
@[simp] theorem pop_entry (k : Nat) : s.pop.2.entry k = s.entry k := by simp [entry]

theorem pop_sp : s.pop.2.sp = if s.sp = -1 then -1 else s.sp - 1 := by
  unfold pop; split <;> simp [*]

theorem pop_reports : Reports s s.pop.2 (if s.sp = -1 then [.unf] else []) := by
  unfold pop
  split
  · exact reports_report s .unf
  · exact Reports.refl_of rfl rfl

/-! ### `peek` (R72) -/

theorem peek_of_empty {s : State} (h : s.sp = -1) : s.peek = (0, s.report .emp) := if_pos h

theorem peek_of_some {s : State} (h : s.sp ≠ -1) : s.peek = (s.entry s.sp.toNat, s) := if_neg h

@[simp] theorem peek_cfg : s.peek.2.cfg = s.cfg := by
  unfold peek; split <;> rfl

@[simp] theorem peek_text : s.peek.2.text = s.text := by
  unfold peek; split <;> rfl

@[simp] theorem peek_cp : s.peek.2.cp = s.cp := by
  unfold peek; split <;> rfl

@[simp] theorem peek_pc : s.peek.2.pc = s.pc := by
  unfold peek; split <;> rfl

@[simp] theorem peek_lv : s.peek.2.lv = s.lv := by
  unfold peek; split <;> rfl

@[simp] theorem peek_wide : s.peek.2.wide = s.wide := by
  unfold peek; split <;> rfl

@[simp] theorem peek_fault : s.peek.2.fault = s.fault := by
  unfold peek; split <;> rfl

@[simp] theorem peek_input : s.peek.2.input = s.input := by
  unfold peek; split <;> rfl

@[simp] theorem peek_inputClosed : s.peek.2.inputClosed = s.inputClosed := by
  unfold peek; split <;> rfl

@[simp] theorem peek_output : s.peek.2.output = s.output := by
  unfold peek; split <;> rfl

@[simp] theorem peek_stk : s.peek.2.stk = s.stk := by
  unfold peek; split <;> rfl

@[simp] theorem peek_sp : s.peek.2.sp = s.sp := by
  unfold peek; split <;> rfl

@[simp] theorem peek_entry (k : Nat) : s.peek.2.entry k = s.entry k := by simp [entry]

theorem peek_reports : Reports s s.peek.2 (if s.sp = -1 then [.emp] else []) := by
  unfold peek
  split
  · exact reports_report s .emp
  · exact Reports.refl_of rfl rfl

/-! ### The input source (R161) -/

/-- The three things `InRead()` can do. -/
theorem inRead_cases :
    (∃ c rest, s.input = c :: rest ∧ s.inRead = some (.byte c, s.setInput rest)) ∨
    (s.input = [] ∧ s.inputClosed = true ∧ s.inRead = some (.endMarker, s)) ∨
    (s.input = [] ∧ s.inputClosed = false ∧ s.inRead = none) := by
  unfold inRead
  cases h : s.input with
  | cons c rest => simp
  | nil => cases h' : s.inputClosed <;> simp

end State

/-! ### The branch rule (R124) -/

theorem takeBranch_cases (off : Half) (s : State) :
    ((branchTarget s.pc off < 0 ∨ s.textSize ≤ branchTarget s.pc off) ∧
      takeBranch off s = .raised .branchTargetOutOfRange (branchTarget s.pc off)) ∨
    (0 ≤ branchTarget s.pc off ∧ branchTarget s.pc off < s.textSize ∧
      takeBranch off s = .done (s.setPc (branchTarget s.pc off).toNat)) := by
  unfold takeBranch
  by_cases h : branchTarget s.pc off < 0 ∨ s.textSize ≤ branchTarget s.pc off
  · exact .inl ⟨h, if_pos h⟩
  · exact .inr ⟨by omega, by omega, if_neg h⟩

/-- A conditional branch: taken by the branch rule, or three bytes on. -/
theorem branchIf_cases (c : Bool) (off : Half) (s : State) :
    (c = true ∧ branchIf c off s = takeBranch off s) ∨
    (c = false ∧ branchIf c off s = .done (s.advance 3)) := by
  cases c <;> simp [branchIf]

/-! ### The local slot (R145) -/

theorem withSlot_cases (vidx : Nat) (s : State) (k : Nat → Result) :
    (s.cfg.stackCap ≤ s.lv + vidx ∧
      withSlot vidx s k = .raised .localIndexOutOfRange (s.lv + vidx)) ∨
    (s.lv + vidx < s.cfg.stackCap ∧ withSlot vidx s k = k (s.lv + vidx)) := by
  unfold withSlot localSlot
  by_cases h : s.cfg.stackCap ≤ s.lv + vidx
  · exact .inl ⟨h, by simp [h]⟩
  · exact .inr ⟨by omega, if_neg h⟩

/-! ### The end of an instruction (R176) and the prefix (R80) -/

@[simp] theorem finish_done (s t : State) : finish s (.done t) = .next t := rfl
@[simp] theorem finish_raised (s : State) (c : FaultCause) (info : Int) :
    finish s (.raised c info) = .next (s.raiseFault c info) := rfl
@[simp] theorem finish_held (s : State) : finish s .held = .fault .heldForInput := rfl
@[simp] theorem finish_illFormed (s : State) : finish s .illFormed = .refused .illFormedTerm := rfl

/-- A next state is what the pseudocode left, or the state before with a fault raised. -/
theorem finish_next {s t : State} {r : Result} (h : finish s r = .next t) :
    r = .done t ∨ ∃ c info, r = .raised c info ∧ t = s.raiseFault c info := by
  cases r with
  | done u => simp only [finish_done, Host.Outcome.next.injEq] at h; exact .inl (by rw [h])
  | raised c info =>
    simp only [finish_raised, Host.Outcome.next.injEq] at h
    exact .inr ⟨c, info, rfl, h.symm⟩
  | held => simp at h
  | illFormed => simp at h

/-- A covered instruction that runs to its end does so with `wide` cleared. -/
theorem underWide_done {body : State → Result} {s t : State} (h : underWide body s = .done t) :
    ∃ u, body ((s.setWide true).advance 1) = .done u ∧ t = u.setWide false := by
  unfold underWide at h
  split at h <;> cases h
  exact ⟨_, ‹_›, rfl⟩

/-- What a raised fault looks like from the state before the step. -/
theorem raised_raiseFault (s : State) (c : FaultCause) (info : Int) :
    s.Raised (s.raiseFault c info) c info := rfl

end Sys2Proof.Machine
end

