-- ==== Sys2Proof/Laws/Operands.lean ====
section
/-! SUPPORT. The operand stack as a list (10_state.md R12), and push, pop and peek on it. -/

namespace Sys2Proof.Machine

theorem pushOn_of_lt {cap : Nat} {l : List Word} (w : Word) (h : l.length < cap) :
    pushOn cap w l = w :: l := if_pos h

theorem pushOn_of_ge {cap : Nat} {l : List Word} (w : Word) (h : cap ≤ l.length) :
    pushOn cap w l = l := if_neg (by omega)

theorem pushReports_of_lt {cap n : Nat} (h : n < cap) : pushReports cap n = [] := if_pos h

theorem pushReports_of_ge {cap n : Nat} (h : cap ≤ n) : pushReports cap n = [.ovf] :=
  if_neg (by omega)

end Sys2Proof.Machine

namespace Sys2Proof.Machine.State

variable (s : State)

theorem operands_length : s.operands.length = (s.sp + 1).toNat := by simp [operands]

theorem depth_eq : s.depth = (s.sp + 1).toNat := s.operands_length

/-- The operand stack is a function of `sp` and the entries up to it. -/
theorem operands_congr {s t : State} (hsp : t.sp = s.sp)
    (h : ∀ k : Nat, (k : Int) ≤ s.sp → t.entry k = s.entry k) : t.operands = s.operands := by
  unfold operands
  rw [hsp]
  congr 1
  refine List.map_congr_left fun k hk => h k ?_
  have := List.mem_range.1 hk
  omega

@[simp] theorem advance_operands (n : Nat) : (s.advance n).operands = s.operands := rfl
@[simp] theorem setPc_operands (t : Nat) : (s.setPc t).operands = s.operands := rfl
@[simp] theorem setWide_operands (b : Bool) : (s.setWide b).operands = s.operands := rfl
@[simp] theorem report_operands (d : Diagnostic) : (s.report d).operands = s.operands := rfl
@[simp] theorem setInput_operands (l : List Byte) : (s.setInput l).operands = s.operands := rfl
@[simp] theorem outWrite_operands (b : Byte) : (s.outWrite b).operands = s.operands := rfl

/-- The `n`-th operand from the top. -/
theorem operands_getElem? {s : State} {n : Nat} (h : (n : Int) ≤ s.sp) :
    s.operands[n]? = some (s.entry (s.sp - n).toNat) := by
  unfold operands
  have hn : n < (s.sp + 1).toNat := by omega
  rw [List.getElem?_reverse (by simpa using hn)]
  simp only [List.length_map, List.length_range]
  rw [List.getElem?_map, List.getElem?_range (by omega)]
  simp only [Option.map_some]
  congr 2
  omega

theorem operand_of_le {s : State} {n : Nat} (h : (n : Int) ≤ s.sp) :
    s.operand n = s.entry (s.sp - n).toNat := by
  rw [operand, List.getD_eq_getElem?_getD, operands_getElem? h]; rfl

theorem operand_of_gt {s : State} {n : Nat} (h : s.sp < n) : s.operand n = 0 := by
  rw [operand, List.getD_eq_getElem?_getD, List.getElem?_eq_none]
  · rfl
  · rw [operands_length]; omega

theorem operands_of_empty {s : State} (h : s.sp = -1) : s.operands = [] := by
  simp [operands, h]

/-- A stack that holds something is its top entry on the stack below it. -/
theorem operands_of_some {s : State} (h : 0 ≤ s.sp) :
    s.operands = s.entry s.sp.toNat :: (s.setSp (s.sp - 1)).operands := by
  unfold operands
  have h1 : (s.sp + 1).toNat = s.sp.toNat + 1 := by omega
  have h2 : ((s.setSp (s.sp - 1)).sp + 1).toNat = s.sp.toNat := by
    rw [setSp_sp]; omega
  rw [h1, h2, List.range_succ, List.map_append, List.reverse_append]
  rfl

/-- `pop` yields the top operand, or 0. -/
theorem pop_fst (h : -1 ≤ s.sp) : s.pop.1 = s.operand 0 := by
  by_cases he : s.sp = -1
  · rw [pop_of_empty he, operand, operands_of_empty he]; rfl
  · rw [pop_of_some he, operand_of_le (by omega)]; simp

/-- `pop` leaves the operands below the top one. -/
theorem pop_operands (h : -1 ≤ s.sp) : s.pop.2.operands = s.operands.drop 1 := by
  by_cases he : s.sp = -1
  · rw [pop_of_empty he, report_operands, operands_of_empty he]; rfl
  · rw [pop_of_some he, operands_of_some (s := s) (by omega)]; rfl

theorem pop_operand (h : -1 ≤ s.sp) (n : Nat) : s.pop.2.operand n = s.operand (n + 1) := by
  simp [operand, pop_operands s h, List.getD_eq_getElem?_getD]

theorem peek_fst (h : -1 ≤ s.sp) : s.peek.1 = s.operand 0 := by
  by_cases he : s.sp = -1
  · rw [peek_of_empty he, operand, operands_of_empty he]; rfl
  · rw [peek_of_some he, operand_of_le (by omega)]; simp

@[simp] theorem peek_operands : s.peek.2.operands = s.operands :=
  operands_congr (s.peek_sp) fun k _ => s.peek_entry k

/-- Room on the stack, by depth. -/
theorem depth_lt_iff (h : -1 ≤ s.sp ∧ s.sp ≤ s.cfg.stackCap - 1) :
    s.operands.length < s.cfg.stackCap ↔ s.sp ≠ s.cfg.stackCap - 1 := by
  rw [operands_length]; omega

/-- `push` on the list of operands (R70). -/
theorem push_operands (v : Word) (h : -1 ≤ s.sp ∧ s.sp ≤ s.cfg.stackCap - 1) :
    (s.push v).operands = pushOn s.cfg.stackCap v s.operands := by
  unfold pushOn
  by_cases hf : s.sp = s.cfg.stackCap - 1
  · rw [push_of_full v hf, report_operands, if_neg fun hl => (s.depth_lt_iff h).1 hl hf]
  · rw [if_pos ((s.depth_lt_iff h).2 hf), push_of_room v hf, operands_of_some (by simp; omega)]
    congr 1
    · simp
    · refine operands_congr (by simp) fun k hk => ?_
      have hk' : k ≠ (s.sp + 1).toNat := by omega
      simp [setEntry_entry_of_ne _ v hk']

/-- The reports of a push, by depth. -/
theorem push_pushReports (v : Word) (h : -1 ≤ s.sp ∧ s.sp ≤ s.cfg.stackCap - 1) :
    Reports s (s.push v) (pushReports s.cfg.stackCap s.operands.length) := by
  have hr := s.push_reports v
  unfold pushReports
  by_cases hf : s.sp = s.cfg.stackCap - 1
  · rw [if_neg fun hl => (s.depth_lt_iff h).1 hl hf]; rwa [if_pos hf] at hr
  · rw [if_pos ((s.depth_lt_iff h).2 hf)]; rwa [if_neg hf] at hr

/-- The reports of a pop, by depth. -/
theorem pop_popReports (h : -1 ≤ s.sp) : Reports s s.pop.2 (popReports 1 s.operands.length) := by
  have hr := s.pop_reports
  rw [operands_length]
  by_cases he : s.sp = -1
  · rw [if_pos he] at hr; simpa [popReports, he] using hr
  · rw [if_neg he] at hr
    have : 1 - (s.sp + 1).toNat = 0 := by omega
    simpa [popReports, this] using hr

/-- `pop` and `push` keep `sp` legal (R12). -/
theorem pop_legal (h : -1 ≤ s.sp ∧ s.sp ≤ s.cfg.stackCap - 1) :
    -1 ≤ s.pop.2.sp ∧ s.pop.2.sp ≤ s.pop.2.cfg.stackCap - 1 := by
  rw [pop_sp, pop_cfg]; split <;> omega

theorem push_legal (v : Word) (h : -1 ≤ s.sp ∧ s.sp ≤ s.cfg.stackCap - 1) :
    -1 ≤ (s.push v).sp ∧ (s.push v).sp ≤ (s.push v).cfg.stackCap - 1 := by
  rw [push_sp, push_cfg]; split <;> omega

end Sys2Proof.Machine.State
end

