-- ==== Sys2Proof/Laws/Exec.lean ====
section
/-! SUPPORT. What `exec` does, said once: every instruction is the end of a pseudocode body, alone or
under WIDE; and how the comparisons of Sys2Proof/Safety.lean compose along a body. -/

namespace Sys2Proof.Machine

namespace State

/-! ### Composition of the comparisons -/

variable {s t u : State}

theorem SameImage.refl (s : State) : SameImage s s := ⟨rfl, rfl, rfl, rfl⟩

theorem SameImage.trans (h : SameImage s t) (h' : SameImage t u) : SameImage s u :=
  ⟨h'.1.trans h.1, h'.2.1.trans h.2.1, h'.2.2.1.trans h.2.2.1, h'.2.2.2.trans h.2.2.2⟩

theorem SameControl.trans (h : SameControl s t) (h' : SameControl t u) : SameControl s u :=
  ⟨h'.1.trans h.1, h'.2.trans h.2⟩

theorem SameChannels.refl (s : State) : SameChannels s s := ⟨rfl, rfl, rfl⟩

theorem SameChannels.trans (h : SameChannels s t) (h' : SameChannels t u) : SameChannels s u :=
  ⟨h'.1.trans h.1, h'.2.1.trans h.2.1, h'.2.2.trans h.2.2⟩

theorem SameEntriesBut.refl (s : State) (ks : List Nat) : SameEntriesBut s s ks := fun _ _ => rfl

theorem SameEntriesBut.trans {ks ks' : List Nat} (h : SameEntriesBut s t ks)
    (h' : SameEntriesBut t u ks') : SameEntriesBut s u (ks ++ ks') := fun k hk => by
  rw [List.mem_append, not_or] at hk
  rw [h' k hk.2, h k hk.1]

theorem SameEntriesBut.mono {ks ks' : List Nat} (h : SameEntriesBut s t ks)
    (hk : ∀ k ∈ ks, k ∈ ks') : SameEntriesBut s t ks' := fun k hk' => h k fun hm => hk' (hk k hm)

/-! ### The primitives in these terms -/

theorem finishes_report (s : State) (d : Diagnostic) : s.Finishes (s.report d) s.pc [d] :=
  ⟨rfl, reports_report s d, SameImage.refl s, rfl, rfl⟩

theorem finishes_push (s : State) (v : Word) (h : -1 ≤ s.sp ∧ s.sp ≤ s.cfg.stackCap - 1) :
    s.Finishes (s.push v) s.pc (pushReports s.cfg.stackCap s.depth) :=
  ⟨by simp, push_pushReports s v h, by simp [SameImage], by simp [SameControl]⟩

theorem finishes_pop (s : State) (h : -1 ≤ s.sp) :
    s.Finishes s.pop.2 s.pc (popReports 1 s.depth) :=
  ⟨by simp, pop_popReports s h, by simp [SameImage], by simp [SameControl]⟩

theorem finishes_peek (s : State) : s.Finishes s.peek.2 s.pc (if s.sp = -1 then [.emp] else []) :=
  ⟨by simp, peek_reports s, by simp [SameImage], by simp [SameControl]⟩

theorem Finishes.trans {p q : Nat} {ds es : List Diagnostic} (h : s.Finishes t p ds)
    (h' : t.Finishes u q es) : s.Finishes u q (ds ++ es) :=
  ⟨h'.1, h.2.1.trans h'.2.1, h.2.2.1.trans h'.2.2.1, h.2.2.2.trans h'.2.2.2⟩

/-- The last move of an instruction: `pc` on by its length. -/
theorem Finishes.advance {p : Nat} {ds : List Diagnostic} (h : s.Finishes t p ds) (n : Nat) :
    s.Finishes (t.advance n) (p + n) ds :=
  ⟨by rw [advance_pc, h.1], h.2.1, h.2.2.1, h.2.2.2⟩

theorem Finishes.setPc {p : Nat} {ds : List Diagnostic} (h : s.Finishes t p ds) (q : Nat) :
    s.Finishes (t.setPc q) q ds := ⟨rfl, h.2.1, h.2.2.1, h.2.2.2⟩

theorem Finishes.setEntry {p : Nat} {ds : List Diagnostic} (h : s.Finishes t p ds) (i : Nat)
    (v : Word) : s.Finishes (t.setEntry i v) p ds := ⟨h.1, h.2.1, h.2.2.1, h.2.2.2⟩

theorem Finishes.outWrite {p : Nat} {ds : List Diagnostic} (h : s.Finishes t p ds) (b : Byte) :
    s.Finishes (t.outWrite b) p ds := ⟨h.1, h.2.1, h.2.2.1, h.2.2.2⟩

theorem Finishes.setInput {p : Nat} {ds : List Diagnostic} (h : s.Finishes t p ds) (l : List Byte) :
    s.Finishes (t.setInput l) p ds := ⟨h.1, h.2.1, h.2.2.1, h.2.2.2⟩

theorem Finishes.refl (s : State) : s.Finishes s s.pc [] :=
  ⟨rfl, Reports.refl_of rfl rfl, SameImage.refl s, rfl, rfl⟩

theorem popReports_two (n : Nat) : popReports 2 n = popReports 1 n ++ popReports 1 (n - 1) := by
  rcases n with - | - | n <;> simp [popReports]

/-- Two pops, as IADD, SWAP and IF_ICMPEQ do them: the words, and the state after them. -/
theorem two_pops (s : State) (h : -1 ≤ s.sp ∧ s.sp ≤ s.cfg.stackCap - 1) :
    s.pop.1 = s.operand 0 ∧ s.pop.2.pop.1 = s.operand 1 ∧
    s.pop.2.pop.2.operands = s.operands.drop 2 ∧
    s.Finishes s.pop.2.pop.2 s.pc (popReports 2 s.depth) ∧
    (-1 ≤ s.pop.2.pop.2.sp ∧ s.pop.2.pop.2.sp ≤ s.pop.2.pop.2.cfg.stackCap - 1) ∧
    s.pop.2.pop.2.sp = max (s.sp - 2) (-1) := by
  have h1 := pop_legal s h
  have hd : s.pop.2.depth = s.depth - 1 := by
    simp [depth, pop_operands s h.1]
  refine ⟨pop_fst s h.1, ?_, ?_, ?_, pop_legal _ h1, ?_⟩
  · rw [pop_fst _ h1.1, pop_operand s h.1]
  · rw [pop_operands _ h1.1, pop_operands s h.1, List.drop_drop]
  · have := (finishes_pop s h.1).trans (finishes_pop s.pop.2 h1.1)
    rw [hd, ← popReports_two, pop_pc] at this
    exact this
  · rw [pop_sp, pop_sp]; split <;> (try split) <;> omega

/-! ### The prefix -/

/-- The state an instruction's body starts in: with `pc` at its own opcode byte. -/
def enter (w : Bool) (s : State) : State := if w then (s.setWide true).advance 1 else s

/-- What happens after the body: the flag is cleared under a prefix. -/
def leave (w : Bool) (t : State) : State := if w then t.setWide false else t

@[simp] theorem enter_pc (w : Bool) (s : State) : (s.enter w).pc = ownOpcode s.pc w := by
  cases w <;> rfl
@[simp] theorem enter_cfg (w : Bool) (s : State) : (s.enter w).cfg = s.cfg := by cases w <;> rfl
@[simp] theorem enter_text (w : Bool) (s : State) : (s.enter w).text = s.text := by cases w <;> rfl
@[simp] theorem enter_cp (w : Bool) (s : State) : (s.enter w).cp = s.cp := by cases w <;> rfl
@[simp] theorem enter_sp (w : Bool) (s : State) : (s.enter w).sp = s.sp := by cases w <;> rfl
@[simp] theorem enter_stk (w : Bool) (s : State) : (s.enter w).stk = s.stk := by cases w <;> rfl
@[simp] theorem enter_lv (w : Bool) (s : State) : (s.enter w).lv = s.lv := by cases w <;> rfl
@[simp] theorem enter_diag (w : Bool) (s : State) : (s.enter w).diag = s.diag := by cases w <;> rfl
@[simp] theorem enter_fault (w : Bool) (s : State) : (s.enter w).fault = s.fault := by
  cases w <;> rfl
@[simp] theorem enter_events (w : Bool) (s : State) : (s.enter w).events = s.events := by
  cases w <;> rfl
@[simp] theorem enter_input (w : Bool) (s : State) : (s.enter w).input = s.input := by
  cases w <;> rfl
@[simp] theorem enter_inputClosed (w : Bool) (s : State) :
    (s.enter w).inputClosed = s.inputClosed := by cases w <;> rfl
@[simp] theorem enter_output (w : Bool) (s : State) : (s.enter w).output = s.output := by
  cases w <;> rfl
@[simp] theorem enter_operands (w : Bool) (s : State) : (s.enter w).operands = s.operands := by
  cases w <;> rfl
@[simp] theorem enter_operand (w : Bool) (s : State) (n : Nat) :
    (s.enter w).operand n = s.operand n := by cases w <;> rfl
@[simp] theorem enter_depth (w : Bool) (s : State) : (s.enter w).depth = s.depth := by
  cases w <;> rfl
@[simp] theorem enter_textSize (w : Bool) (s : State) : (s.enter w).textSize = s.textSize := by
  cases w <;> rfl
@[simp] theorem enter_entry (w : Bool) (s : State) (k : Nat) : (s.enter w).entry k = s.entry k := by
  cases w <;> rfl
@[simp] theorem leave_pc (w : Bool) (t : State) : (t.leave w).pc = t.pc := by cases w <;> rfl
@[simp] theorem leave_sp (w : Bool) (t : State) : (t.leave w).sp = t.sp := by cases w <;> rfl
@[simp] theorem leave_entry (w : Bool) (t : State) (k : Nat) : (t.leave w).entry k = t.entry k := by
  cases w <;> rfl
@[simp] theorem leave_operand (w : Bool) (t : State) (n : Nat) :
    (t.leave w).operand n = t.operand n := by cases w <;> rfl
@[simp] theorem leave_input (w : Bool) (t : State) : (t.leave w).input = t.input := by
  cases w <;> rfl
@[simp] theorem leave_inputClosed (w : Bool) (t : State) :
    (t.leave w).inputClosed = t.inputClosed := by cases w <;> rfl
@[simp] theorem leave_output (w : Bool) (t : State) : (t.leave w).output = t.output := by
  cases w <;> rfl
@[simp] theorem leave_reported (w : Bool) (t : State) (d : Diagnostic) :
    (t.leave w).reported d = t.reported d := by cases w <;> rfl

/-- What a body finishes with holds of the whole instruction. -/
theorem Finishes.of_body {w : Bool} {p : Nat} {ds : List Diagnostic} (hw : s.wide = false)
    (h : (s.enter w).Finishes t p ds) : s.Finishes (t.leave w) p ds := by
  cases w
  · exact h
  · exact ⟨h.1, h.2.1, h.2.2.1, hw.symm, h.2.2.2.2⟩

theorem Ends.of_body {w : Bool} {p : Nat} {ops : List Word} {ds : List Diagnostic}
    (hw : s.wide = false) (h : (s.enter w).Ends t p ops ds) : s.Ends (t.leave w) p ops ds := by
  refine ⟨?_, Finishes.of_body hw h.2⟩
  cases w <;> exact h.1

theorem SameChannels.of_body {w : Bool} (h : (s.enter w).SameChannels t) :
    s.SameChannels (t.leave w) := by
  simpa [SameChannels] using h

theorem SameEntriesBut.of_body {w : Bool} {ks : List Nat} (h : (s.enter w).SameEntriesBut t ks) :
    s.SameEntriesBut (t.leave w) ks := fun k hk => by simpa using h k hk

end State

/-! ### Every instruction is a body with its end -/

/-- The body of every instruction whose format WIDE keeps. -/
theorem exec_eq_finish {i : Instr} (h : i.keepsFormat = true) (s : State) :
    exec i s = finish s (coveredBody i s) := by
  cases i <;> first | rfl | cases h

/-- The same alone and under WIDE (R85). -/
theorem exec_aloneOrWide {i : Instr} (h : i.keepsFormat = true) (w : Bool) (s : State) :
    exec (i.aloneOrWide w) s =
      match coveredBody i (s.enter w) with
      | .done t => .next (t.leave w)
      | .raised c info => .next (s.raiseFault c info)
      | .held => .fault .heldForInput
      | .illFormed => .refused .illFormedTerm := by
  cases w
  · rw [Instr.aloneOrWide, exec_eq_finish h]
    show finish s (coveredBody i s) = _
    cases hb : coveredBody i s <;> simp [State.enter, State.leave, hb]
  · show finish s (underWide (coveredBody i) s) = _
    cases hb : coveredBody i ((s.setWide true).advance 1) <;>
      simp [State.enter, State.leave, underWide, hb]

/-- An instruction completes with what its body leaves. -/
theorem exec_of_done {i : Instr} {w : Bool} {s t : State} (h : i.keepsFormat = true)
    (hb : coveredBody i (s.enter w) = .done t) : exec (i.aloneOrWide w) s = .next (t.leave w) := by
  rw [exec_aloneOrWide h, hb]

/-- An instruction whose body raises a fault raises it. -/
theorem exec_of_raised {i : Instr} {w : Bool} {s : State} {c : FaultCause} {info : Int}
    (h : i.keepsFormat = true) (hb : coveredBody i (s.enter w) = .raised c info) :
    exec (i.aloneOrWide w) s = .next (s.raiseFault c info) := by
  rw [exec_aloneOrWide h, hb]

end Sys2Proof.Machine
end

