-- ==== Sys2Proof/Laws/PerInstr.lean ====
section
/-! SUPPORT. The family `EncodeLength`: a well-formed instruction is as many bytes as its format says
(30_encoding.md R51), 1 to 5 of them (R50). One lemma per constructor. -/

namespace Sys2Proof.Laws.EncodeLength

/-- The encoding has the length of the format, 1 to 5 bytes. -/
def Statement (i : Instr) : Prop :=
  ∀ opc : OpcodeMap, i.wf opc = true →
    (encode opc i).length = i.length ∧ 1 ≤ i.length ∧ i.length ≤ 5

theorem nop : Statement .nop := fun _ _ => ⟨rfl, by simp [Instr.length], by simp [Instr.length]⟩

theorem bipush (b : Byte) : Statement (.bipush b) := fun _ _ => ⟨rfl, by simp [Instr.length], by simp [Instr.length]⟩

theorem ldcW (x : Half) : Statement (.ldcW x) := fun _ _ => ⟨rfl, by simp [Instr.length], by simp [Instr.length]⟩

theorem iload (v : Byte) : Statement (.iload v) := fun _ _ => ⟨rfl, by simp [Instr.length], by simp [Instr.length]⟩

theorem istore (v : Byte) : Statement (.istore v) := fun _ _ => ⟨rfl, by simp [Instr.length], by simp [Instr.length]⟩

theorem pop : Statement .pop := fun _ _ => ⟨rfl, by simp [Instr.length], by simp [Instr.length]⟩

theorem dup : Statement .dup := fun _ _ => ⟨rfl, by simp [Instr.length], by simp [Instr.length]⟩

theorem swap : Statement .swap := fun _ _ => ⟨rfl, by simp [Instr.length], by simp [Instr.length]⟩

theorem iadd : Statement .iadd := fun _ _ => ⟨rfl, by simp [Instr.length], by simp [Instr.length]⟩

theorem isub : Statement .isub := fun _ _ => ⟨rfl, by simp [Instr.length], by simp [Instr.length]⟩

theorem iand : Statement .iand := fun _ _ => ⟨rfl, by simp [Instr.length], by simp [Instr.length]⟩

theorem iinc (v c : Byte) : Statement (.iinc v c) := fun _ _ => ⟨rfl, by simp [Instr.length], by simp [Instr.length]⟩

theorem ifeq (x : Half) : Statement (.ifeq x) := fun _ _ => ⟨rfl, by simp [Instr.length], by simp [Instr.length]⟩

theorem iflt (x : Half) : Statement (.iflt x) := fun _ _ => ⟨rfl, by simp [Instr.length], by simp [Instr.length]⟩

theorem ifIcmpeq (x : Half) : Statement (.ifIcmpeq x) := fun _ _ => ⟨rfl, by simp [Instr.length], by simp [Instr.length]⟩

theorem goto (x : Half) : Statement (.goto x) := fun _ _ => ⟨rfl, by simp [Instr.length], by simp [Instr.length]⟩

theorem ior : Statement .ior := fun _ _ => ⟨rfl, by simp [Instr.length], by simp [Instr.length]⟩

theorem in_ : Statement .in_ := fun _ _ => ⟨rfl, by simp [Instr.length], by simp [Instr.length]⟩

theorem out : Statement .out := fun _ _ => ⟨rfl, by simp [Instr.length], by simp [Instr.length]⟩

theorem err : Statement .err := fun _ _ => ⟨rfl, by simp [Instr.length], by simp [Instr.length]⟩

theorem halt : Statement .halt := fun _ _ => ⟨rfl, by simp [Instr.length], by simp [Instr.length]⟩

theorem wide (c : Instr) : Statement (.wide c) := by
  intro opc h
  cases c <;> first
    | (cases h; done)
    | exact ⟨rfl, by simp [Instr.length], by simp [Instr.length]⟩

theorem wideIload (v : Half) : Statement (.wideIload v) := fun _ _ => ⟨rfl, by simp [Instr.length], by simp [Instr.length]⟩

theorem wideIstore (v : Half) : Statement (.wideIstore v) := fun _ _ => ⟨rfl, by simp [Instr.length], by simp [Instr.length]⟩

theorem wideIinc (v : Half) (c : Byte) : Statement (.wideIinc v c) := fun _ _ => ⟨rfl, by simp [Instr.length], by simp [Instr.length]⟩

theorem wideWide : Statement .wideWide := fun _ _ => ⟨rfl, by simp [Instr.length], by simp [Instr.length]⟩

theorem unrecognized (b : Byte) : Statement (.unrecognized b) := fun _ _ => ⟨rfl, by simp [Instr.length], by simp [Instr.length]⟩

end Sys2Proof.Laws.EncodeLength
end

