-- ==== Sys2Proof/Laws/Step.lean ====
section
/-! SUPPORT. What an instruction and a step can do, said once: the inversion lemmas that invariants and
whole-machine rules cite. -/

namespace Sys2Proof.Machine

namespace State

/-- The part of the invariants that speaks of the stack storage: `sp` legal, the listing canonical and
inside the storage. -/
def GoodStorage (s : State) : Prop :=
  (-1 ≤ s.sp ∧ s.sp ≤ s.cfg.stackCap - 1) ∧
    Memory.wf s.stk = true ∧ Memory.within s.cfg.stackCap s.stk = true

/-- What every body does to the other registers: image and fault register are the same, `wide` is the
same or cleared, the input is closed as before, and the reports are those of some list. -/
def Kept (s t : State) : Prop :=
  (∃ ds, Reports s t ds) ∧ SameImage s t ∧ (t.wide = s.wide ∨ t.wide = false) ∧ t.fault = s.fault ∧
    t.inputClosed = s.inputClosed

variable {s t u : State}

/-- Moves that write nothing but `pc`, an entry, the output or the input. -/
theorem kept_of_eq (hi : SameImage s t) (hc : SameControl s t) (hd : t.diag = s.diag)
    (he : t.events = s.events) (hin : t.inputClosed = s.inputClosed) : Kept s t :=
  ⟨⟨[], Reports.refl_of he hd⟩, hi, .inl hc.1, hc.2, hin⟩

theorem Kept.refl (s : State) : Kept s s := kept_of_eq (SameImage.refl s) ⟨rfl, rfl⟩ rfl rfl rfl

theorem Kept.trans (h : Kept s t) (h' : Kept t u) : Kept s u := by
  obtain ⟨⟨ds, hd⟩, hi, hw, hf, hc⟩ := h
  obtain ⟨⟨es, he⟩, hi', hw', hf', hc'⟩ := h'
  refine ⟨⟨ds ++ es, hd.trans he⟩, hi.trans hi', ?_, hf'.trans hf, hc'.trans hc⟩
  rcases hw' with hw' | hw'
  · rw [hw']; exact hw
  · exact .inr hw'

theorem kept_push (s : State) (v : Word) : Kept s (s.push v) :=
  ⟨⟨_, push_reports s v⟩, by simp [SameImage], by simp, by simp, by simp⟩

theorem kept_pop (s : State) : Kept s s.pop.2 :=
  ⟨⟨_, pop_reports s⟩, by simp [SameImage], by simp, by simp, by simp⟩

theorem kept_peek (s : State) : Kept s s.peek.2 :=
  ⟨⟨_, peek_reports s⟩, by simp [SameImage], by simp, by simp, by simp⟩

theorem kept_report (s : State) (d : Diagnostic) : Kept s (s.report d) :=
  ⟨⟨_, reports_report s d⟩, SameImage.refl s, .inl rfl, rfl, rfl⟩

theorem kept_advance (s : State) (n : Nat) : Kept s (s.advance n) :=
  kept_of_eq (SameImage.refl s) ⟨rfl, rfl⟩ rfl rfl rfl

theorem kept_setPc (s : State) (n : Nat) : Kept s (s.setPc n) :=
  kept_of_eq (SameImage.refl s) ⟨rfl, rfl⟩ rfl rfl rfl

theorem kept_setEntry (s : State) (i : Nat) (v : Word) : Kept s (s.setEntry i v) :=
  kept_of_eq (SameImage.refl s) ⟨rfl, rfl⟩ rfl rfl rfl

theorem kept_outWrite (s : State) (b : Byte) : Kept s (s.outWrite b) :=
  kept_of_eq (SameImage.refl s) ⟨rfl, rfl⟩ rfl rfl rfl

theorem kept_setInput (s : State) (l : List Byte) : Kept s (s.setInput l) :=
  kept_of_eq (SameImage.refl s) ⟨rfl, rfl⟩ rfl rfl rfl

/-! ### The stack storage stays good -/

theorem GoodStorage.push (h : s.GoodStorage) (v : Word) : (s.push v).GoodStorage := by
  refine ⟨push_legal s v h.1, ?_⟩
  rw [push_cfg]
  by_cases hf : s.sp = s.cfg.stackCap - 1
  · rw [push_of_full v hf]; exact h.2
  · rw [push_of_room v hf]
    have := h.1
    exact ⟨Memory.wf_write _ _ h.2.1, Memory.within_write _ (by omega) h.2.2⟩

theorem GoodStorage.pop (h : s.GoodStorage) : s.pop.2.GoodStorage := by
  refine ⟨pop_legal s h.1, ?_⟩
  rw [pop_cfg, pop_stk]
  exact h.2

theorem GoodStorage.peek (h : s.GoodStorage) : s.peek.2.GoodStorage := by
  unfold GoodStorage
  rw [peek_cfg, peek_stk, peek_sp]
  exact h

theorem GoodStorage.setEntry (h : s.GoodStorage) {i : Nat} (v : Word) (hi : i < s.cfg.stackCap) :
    (s.setEntry i v).GoodStorage :=
  ⟨h.1, Memory.wf_write _ _ h.2.1, Memory.within_write _ hi h.2.2⟩

end State

open State

/-! ### What a body can do -/

/-- What is known of a body, of `len` bytes, that runs to its end: it keeps the other registers, the
storage stays good, and `pc` stays within the stream when the body's bytes are. -/
def BodySound (len : Nat) (s : State) (r : Result) : Prop :=
  ∀ t, r = .done t → Kept s t ∧ (s.GoodStorage → t.GoodStorage) ∧
    (s.pc + len ≤ s.textSize → t.pc ≤ t.textSize)

theorem takeBranch_done {off : Half} {s t : State} (h : takeBranch off s = .done t) :
    ∃ p, p ≤ s.textSize ∧ t = s.setPc p := by
  rcases takeBranch_cases off s with ⟨-, h'⟩ | ⟨h0, h1, h'⟩ <;> rw [h'] at h <;> cases h
  exact ⟨_, by omega, rfl⟩

theorem branchIf_done {c : Bool} {off : Half} {s t : State} (h : branchIf c off s = .done t) :
    (∃ p, p ≤ s.textSize ∧ t = s.setPc p) ∨ t = s.advance 3 := by
  rcases branchIf_cases c off s with ⟨-, h'⟩ | ⟨-, h'⟩ <;> rw [h'] at h
  · exact .inl (takeBranch_done h)
  · cases h; exact .inr rfl

theorem withSlot_done {n : Nat} {s t : State} {k : Nat → Result} (h : withSlot n s k = .done t) :
    s.lv + n < s.cfg.stackCap ∧ k (s.lv + n) = .done t := by
  rcases withSlot_cases n s k with ⟨-, h'⟩ | ⟨hl, h'⟩ <;> rw [h'] at h
  · cases h
  · exact ⟨hl, h⟩

/-- A branch after `s` has become `u` by pops. -/
theorem branchIf_sound {c : Bool} {off : Half} {s u : State} (hk : Kept s u)
    (hg : s.GoodStorage → u.GoodStorage) (hp : u.pc = s.pc) (ht : u.textSize = s.textSize) :
    BodySound 3 s (branchIf c off u) := by
  intro t h
  rcases branchIf_done h with ⟨p, hp', rfl⟩ | rfl
  · exact ⟨hk.trans (kept_setPc u p), hg, fun _ => by simpa using hp'⟩
  · exact ⟨hk.trans (kept_advance u 3), hg, fun hb => by simp [hp, ht]; omega⟩

/-- A body that ends `len` bytes on, in a state `u` with the same `pc` and text. -/
theorem advance_sound {len : Nat} {s u : State} (hk : Kept s u)
    (hg : s.GoodStorage → u.GoodStorage) (hp : u.pc = s.pc) (ht : u.textSize = s.textSize) :
    BodySound len s (.done (u.advance len)) := by
  intro t h
  cases h
  exact ⟨hk.trans (kept_advance u len), hg, fun hb => by simpa [hp, ht] using hb⟩

theorem binaryOp_sound (f : Word → Word → Word) (s : State) : BodySound 1 s (binaryOp f s) :=
  advance_sound (((kept_pop s).trans (kept_pop _)).trans (kept_push _ _))
    (fun h => (h.pop.pop).push _) (by simp) (by simp)

theorem loadLocal_sound (n len : Nat) (s : State) : BodySound len s (loadLocal n len s) := by
  intro t h
  obtain ⟨-, h'⟩ := withSlot_done h
  exact advance_sound (kept_push s _) (fun h => h.push _) (by simp) (by simp) t h'

theorem storeLocal_sound (n len : Nat) (s : State) : BodySound len s (storeLocal n len s) := by
  intro t h
  obtain ⟨hl, h'⟩ := withSlot_done h
  exact advance_sound ((kept_pop s).trans (kept_setEntry _ _ _))
    (fun h => h.pop.setEntry _ (by simpa using hl)) (by simp) (by simp) t h'

theorem incLocal_sound (n : Nat) (c : Byte) (len : Nat) (s : State) :
    BodySound len s (incLocal n c len s) := by
  intro t h
  obtain ⟨hl, h'⟩ := withSlot_done h
  exact advance_sound (kept_setEntry s _ _) (fun h => h.setEntry _ hl) rfl rfl t h'

theorem inBody_sound (s : State) : BodySound 1 s (inBody s) := by
  intro t h
  unfold inBody at h
  rcases inRead_cases s with ⟨c, r, -, h'⟩ | ⟨-, -, h'⟩ | ⟨-, -, h'⟩ <;> rw [h'] at h
  · exact advance_sound ((kept_setInput s r).trans (kept_push _ (zext8 c)))
      (fun hg => State.GoodStorage.push (s := s.setInput r) hg _) (by simp) (by simp) t h
  · exact advance_sound ((kept_push s s.cfg.eofSentinel).trans (kept_push _ 0))
      (fun hg => (hg.push _).push _) (by simp) (by simp) t h
  · cases h

/-- Every body that WIDE can cover. -/
theorem coveredBody_sound (i : Instr) (s : State) : BodySound i.length s (coveredBody i s) := by
  cases i with
  | nop => exact advance_sound (Kept.refl s) id rfl rfl
  | bipush b => exact advance_sound (kept_push s _) (fun h => h.push _) (by simp) (by simp)
  | ldcW x =>
    intro t h
    simp only [coveredBody, ldcWBody] at h
    split at h
    · exact advance_sound (kept_push s _) (fun h => h.push _) (by simp) (by simp) t h
    · cases h
  | pop => exact advance_sound (kept_pop s) (fun h => h.pop) (by simp) (by simp)
  | dup =>
    exact advance_sound ((kept_peek s).trans (kept_push _ _)) (fun h => h.peek.push _) (by simp)
      (by simp [textSize])
  | swap =>
    exact advance_sound
      ((((kept_pop s).trans (kept_pop _)).trans (kept_push _ _)).trans (kept_push _ _))
      (fun h => (h.pop.pop.push _).push _) (by simp) (by simp)
  | iadd => exact binaryOp_sound _ s
  | isub => exact binaryOp_sound _ s
  | iand => exact binaryOp_sound _ s
  | ior => exact binaryOp_sound _ s
  | ifeq off => exact branchIf_sound (kept_pop s) (fun h => h.pop) (by simp) (by simp)
  | iflt off => exact branchIf_sound (kept_pop s) (fun h => h.pop) (by simp) (by simp)
  | ifIcmpeq off =>
    exact branchIf_sound ((kept_pop s).trans (kept_pop _)) (fun h => h.pop.pop) (by simp) (by simp)
  | goto off => exact branchIf_sound (c := true) (Kept.refl s) id rfl rfl
  | in_ => exact inBody_sound s
  | out =>
    exact advance_sound ((kept_pop s).trans (kept_outWrite _ _)) (fun h => h.pop) (by simp)
      (by simp)
  | err =>
    intro t h; cases h
    exact ⟨(kept_report s _).trans (kept_setPc _ _), id, fun _ => le_refl _⟩
  | halt => intro t h; cases h; exact ⟨kept_setPc s _, id, fun _ => le_refl _⟩
  | unrecognized b => exact advance_sound (Kept.refl s) id rfl rfl
  | iload _ => intro t h; cases h
  | istore _ => intro t h; cases h
  | iinc _ _ => intro t h; cases h
  | wide _ => intro t h; cases h
  | wideIload _ => intro t h; cases h
  | wideIstore _ => intro t h; cases h
  | wideIinc _ _ => intro t h; cases h
  | wideWide => intro t h; cases h

/-! ### What an instruction can do -/

/-- The body that `exec` runs, from the state before the instruction. -/
def wholeBody : Instr → State → Result
  | .iload v, s => loadLocal v.toNat 2 s
  | .istore v, s => storeLocal v.toNat 2 s
  | .iinc v c, s => incLocal v.toNat c 3 s
  | .wide c, s => underWide (coveredBody c) s
  | .wideIload v, s => underWide (loadLocal v.toNat 3) s
  | .wideIstore v, s => underWide (storeLocal v.toNat 3) s
  | .wideIinc v c, s => underWide (incLocal v.toNat c 4) s
  | .wideWide, s => .raised .nestedPrefix (s.pc + 1)
  | i, s => coveredBody i s

theorem exec_eq_wholeBody (i : Instr) (s : State) : exec i s = finish s (wholeBody i s) := by
  cases i <;> rfl

/-- A body under WIDE that runs to its end, seen from the state before the prefix. -/
theorem underWide_sound {len : Nat} {body : State → Result} {s : State}
    (hb : ∀ u, BodySound len u (body u)) : BodySound (1 + len) s (underWide body s) := by
  intro t h
  obtain ⟨u, hu, rfl⟩ := underWide_done h
  obtain ⟨⟨hr, hi, -, hf, hc⟩, hg, hp⟩ := hb _ u hu
  refine ⟨⟨hr, hi, .inr rfl, hf, hc⟩, hg, fun hl => hp ?_⟩
  simp only [advance_pc, setWide_pc, advance_textSize, setWide_textSize]
  omega

theorem wholeBody_sound (i : Instr) (s : State) :
    BodySound i.length s (wholeBody i s) := by
  cases i with
  | iload v => exact loadLocal_sound _ _ s
  | istore v => exact storeLocal_sound _ _ s
  | iinc v c => exact incLocal_sound _ _ _ s
  | wide c => exact underWide_sound (coveredBody_sound c)
  | wideIload v => exact underWide_sound (len := 3) (loadLocal_sound _ _)
  | wideIstore v => exact underWide_sound (len := 3) (storeLocal_sound _ _)
  | wideIinc v c => exact underWide_sound (len := 4) (incLocal_sound _ _ _)
  | wideWide => intro t h; cases h
  | _ => exact coveredBody_sound _ s

/-- The next states of an instruction: a fault raised and nothing else, or the end of its body. -/
theorem exec_next {i : Instr} {s t : State} (h : exec i s = .next t) :
    (∃ c info, t = s.raiseFault c info) ∨
    (wholeBody i s = .done t ∧ Kept s t ∧ (s.GoodStorage → t.GoodStorage) ∧
      (s.pc + i.length ≤ s.textSize → t.pc ≤ t.textSize)) := by
  rw [exec_eq_wholeBody] at h
  rcases finish_next h with hd | ⟨c, info, -, rfl⟩
  · exact .inr ⟨hd, wholeBody_sound i s t hd⟩
  · exact .inl ⟨c, info, rfl⟩

/-- The next states of a step: the instruction at `pc` run on the state with an empty event list, or a
byte of it not there. -/
theorem step_next {s t : State} (h : step s = .next t) :
    s.fault = none ∧
    ((∃ i rest, decode s.cfg.opc (s.text.drop s.pc) = .ok i rest ∧ exec i s.beginStep = .next t) ∨
      ∃ off, t = s.beginStep.raiseFault .fetchOutOfRange (s.pc + off)) := by
  unfold step at h
  split at h
  · rename_i hf
    refine ⟨hf, ?_⟩
    unfold stepRunning State.fetch at h
    split at h
    · exact .inl ⟨_, _, ‹_›, h⟩
    · rw [finish_raised] at h
      cases h
      exact .inr ⟨_, rfl⟩
  · cases h

end Sys2Proof.Machine
end

