-- ==== Sys2Proof/Tests/Slice0.lean ====
section
/-! SUPPORT. Tests: ill-formed terms that `Instr.wf` refuses, words written out bit by bit from
30_encoding.md R51 and R58, single steps of the vectors of 95_test_vectors.md (the spec's own words for
them: "derived from this spec's rules, not from a run"), and for each obligation with hypotheses a
witness that meets them. -/

namespace Sys2Proof.Tests

open Sys2Proof Sys2Proof.Machine

/-! ### WellFormed: one ill-formed term for each check -/

theorem test_wf_refuses_opcode_byte_as_unrecognized :
    (Instr.unrecognized 0x00).wf defaultOpc = false := by decide

theorem test_wf_refuses_prefix_byte_as_unrecognized :
    (Instr.wide (.unrecognized 0xC4)).wf defaultOpc = false := by decide

theorem test_wf_refuses_narrow_iload_under_wide :
    (Instr.wide (.iload 3)).wf defaultOpc = false := by decide

theorem test_wf_refuses_narrow_istore_under_wide :
    (Instr.wide (.istore 3)).wf defaultOpc = false := by decide

theorem test_wf_refuses_narrow_iinc_under_wide :
    (Instr.wide (.iinc 3 1)).wf defaultOpc = false := by decide

theorem test_wf_refuses_prefixed_forms_under_wide :
    (Instr.wide (.wideIload 3)).wf defaultOpc = false ∧
    (Instr.wide (.wideIstore 3)).wf defaultOpc = false ∧
    (Instr.wide (.wideIinc 3 1)).wf defaultOpc = false ∧
    (Instr.wide .wideWide).wf defaultOpc = false := by decide

theorem test_wf_refuses_wide_under_wide : (Instr.wide (.wide .nop)).wf defaultOpc = false := by
  decide

theorem test_wf_accepts : (Instr.wide (.unrecognized 0x01)).wf defaultOpc = true := by decide

/-! ### Decode: one word for each constructor (R51, R57, R58) -/

theorem test_decode_nop :
    decode defaultOpc [0b00000000#8, 0x77#8] = .ok (.nop) [0x77#8] := by decide

theorem test_decode_bipush :
    decode defaultOpc [0b00010000#8, 0b11111011#8, 0x77#8] = .ok (.bipush 0xFB) [0x77#8] := by decide

theorem test_decode_ldcW :
    decode defaultOpc [0b00010011#8, 0b00000001#8, 0b00000010#8, 0x77#8] = .ok (.ldcW 0x0102) [0x77#8] := by decide

theorem test_decode_iload :
    decode defaultOpc [0b00010101#8, 0b10000001#8, 0x77#8] = .ok (.iload 129) [0x77#8] := by decide

theorem test_decode_istore :
    decode defaultOpc [0b00110110#8, 0b00000101#8, 0x77#8] = .ok (.istore 5) [0x77#8] := by decide

theorem test_decode_pop :
    decode defaultOpc [0b01010111#8, 0x77#8] = .ok (.pop) [0x77#8] := by decide

theorem test_decode_dup :
    decode defaultOpc [0b01011001#8, 0x77#8] = .ok (.dup) [0x77#8] := by decide

theorem test_decode_swap :
    decode defaultOpc [0b01011111#8, 0x77#8] = .ok (.swap) [0x77#8] := by decide

theorem test_decode_iadd :
    decode defaultOpc [0b01100000#8, 0x77#8] = .ok (.iadd) [0x77#8] := by decide

theorem test_decode_isub :
    decode defaultOpc [0b01100100#8, 0x77#8] = .ok (.isub) [0x77#8] := by decide

theorem test_decode_iand :
    decode defaultOpc [0b01111110#8, 0x77#8] = .ok (.iand) [0x77#8] := by decide

theorem test_decode_iinc :
    decode defaultOpc [0b10000100#8, 0b00000101#8, 0b10000000#8, 0x77#8] = .ok (.iinc 5 0x80) [0x77#8] := by decide

theorem test_decode_ifeq :
    decode defaultOpc [0b10011001#8, 0b00000000#8, 0b00000100#8, 0x77#8] = .ok (.ifeq 4) [0x77#8] := by decide

theorem test_decode_iflt :
    decode defaultOpc [0b10011011#8, 0b01111111#8, 0b11111111#8, 0x77#8] = .ok (.iflt 0x7FFF) [0x77#8] := by decide

theorem test_decode_ifIcmpeq :
    decode defaultOpc [0b10011111#8, 0b10000000#8, 0b00000001#8, 0x77#8] = .ok (.ifIcmpeq 0x8001) [0x77#8] := by decide

theorem test_decode_goto :
    decode defaultOpc [0b10100111#8, 0b11111111#8, 0b11110100#8, 0x77#8] = .ok (.goto 0xFFF4) [0x77#8] := by decide

theorem test_decode_ior :
    decode defaultOpc [0b10110000#8, 0x77#8] = .ok (.ior) [0x77#8] := by decide

theorem test_decode_in :
    decode defaultOpc [0b11111100#8, 0x77#8] = .ok (.in_) [0x77#8] := by decide

theorem test_decode_out :
    decode defaultOpc [0b11111101#8, 0x77#8] = .ok (.out) [0x77#8] := by decide

theorem test_decode_err :
    decode defaultOpc [0b11111110#8, 0x77#8] = .ok (.err) [0x77#8] := by decide

theorem test_decode_halt :
    decode defaultOpc [0b11111111#8, 0x77#8] = .ok (.halt) [0x77#8] := by decide

theorem test_decode_wide :
    decode defaultOpc [0b11000100#8, 0b00010000#8, 0b00000101#8, 0x77#8] = .ok (.wide (.bipush 5)) [0x77#8] := by decide

theorem test_decode_wideIload :
    decode defaultOpc [0b11000100#8, 0b00010101#8, 0b00000001#8, 0b11110011#8, 0x77#8] = .ok (.wideIload 499) [0x77#8] := by decide

theorem test_decode_wideIstore :
    decode defaultOpc [0b11000100#8, 0b00110110#8, 0b00000001#8, 0b00101100#8, 0x77#8] = .ok (.wideIstore 300) [0x77#8] := by decide

theorem test_decode_wideIinc :
    decode defaultOpc [0b11000100#8, 0b10000100#8, 0b00000001#8, 0b00000000#8, 0b00000101#8, 0x77#8] = .ok (.wideIinc 256 5) [0x77#8] := by decide

theorem test_decode_wideWide :
    decode defaultOpc [0b11000100#8, 0b11000100#8, 0x77#8] = .ok (.wideWide) [0x77#8] := by decide

theorem test_decode_unrecognized :
    decode defaultOpc [0b10110110#8, 0x77#8] = .ok (.unrecognized 0xB6) [0x77#8] := by decide

/-- The five bytes of a wide increment, cut after four (R36). -/
theorem test_decode_truncated :
    decode defaultOpc [0xC4, 0x84, 0x01, 0x00] = .truncated 4 := by decide

/-- A two-byte operand with one byte left fails at its first byte (R36). -/
theorem test_decode_truncated_half : decode defaultOpc [0xA7, 0x00] = .truncated 1 := by decide

/-! ### The table's numbering -/

theorem test_table_word_one_byte :
    (decodeTableWord 8 0x10, decodeTableWord 8 0xFF, decodeTableWord 8 0xC4)
      = (some (.bipush 0), some .halt, some (.wide .nop)) := by decide

theorem test_table_word_two_byte_match :
    (decodeTableWord 16 0xC415, decodeTableWord 16 0xC436, decodeTableWord 16 0xC484,
      decodeTableWord 16 0xC4C4)
      = (some (.wideIload 0), some (.wideIstore 0), some (.wideIinc 0 0), some .wideWide) := by decide

/-- The second byte of a longer word is bits 15..8. -/
theorem test_table_word_operands :
    decodeTableWord 24 0x03FFA7 = some (.goto 0xFF03) := by decide

/-! ### One step -/

/-- Reset with a stream, a pool and an operand stack (bottom first). -/
def machine (text : List Byte) (cp : List Word) (ops : List Word) : State :=
  (State.resetWith defaultConfig ⟨text, cp⟩ [] [] true).pushAll ops

/-- The state after one step, where there is one. -/
def after (s : State) : Option State :=
  match step s with
  | .next t => some t
  | .fault _ => none
  | .refused _ => none

/-- `pc`, the operand stack (top first), the reports of the step and the fault register after it. -/
def summary (s : State) : Option (Nat × List Word × List Diagnostic × Option FaultRecord) :=
  (after s).map fun t => (t.pc, t.operands, t.events, t.fault)

/-- K5. -/
theorem test_nop : summary (machine [0x00, 0x00] [] [7])
    = some (1, [7], [], none) := by decide

/-- K1. -/
theorem test_bipush_negative : summary (machine [0x10, 0x80] [] [])
    = some (2, [0xFFFFFF80], [], none) := by decide

/-- O1. -/
theorem test_bipush_full : summary ({ machine [0x10, 0x02] [] [1] with cfg := { defaultConfig with stackCap := 1 } })
    = some (2, [1], [.ovf], none) := by decide

/-- P3. -/
theorem test_ldcW : summary (machine [0x13, 0x00, 0x01] [0x00010000, 0xFFFFFFFE] [])
    = some (3, [0xFFFFFFFE], [], none) := by decide

/-- L7. -/
theorem test_ldcW_index_unsigned : summary (machine [0x13, 0xFF, 0xFF] [1, 2] [])
    = some (0, [], [], some ⟨.constIndexOutOfRange, 0, 65535⟩) := by decide

/-- L5. -/
theorem test_iload : summary (machine [0x15, 0x03] [] [1, 2, 3, 0x80])
    = some (2, [0x80, 0x80, 3, 2, 1], [], none) := by decide

/-- R145. -/
theorem test_iload_outside : summary ({ machine [0x15, 0x01] [] [] with lv := 999 })
    = some (0, [], [], some ⟨.localIndexOutOfRange, 0, 1000⟩) := by decide

/-- L8. -/
theorem test_istore_empty : summary ({ machine [0x36, 0x00] [] [] with lv := 10 })
    = some (2, [], [.unf], none) := by decide

/-- O2. -/
theorem test_pop_empty : summary (machine [0x57] [] [])
    = some (1, [], [.unf], none) := by decide

/-- O3. -/
theorem test_dup_empty : summary (machine [0x59] [] [])
    = some (1, [0], [.emp], none) := by decide

/-- S4. -/
theorem test_dup : summary (machine [0x59] [] [7])
    = some (1, [7, 7], [], none) := by decide

/-- K4. -/
theorem test_swap : summary (machine [0x5F] [] [1, 2])
    = some (1, [1, 2], [], none) := by decide

/-- K2. -/
theorem test_swap_one : summary (machine [0x5F] [] [7])
    = some (1, [0, 7], [.unf], none) := by decide

/-- A2. -/
theorem test_iadd_wraps : summary (machine [0x60] [] [0x7FFFFFFF, 1])
    = some (1, [0x80000000], [], none) := by decide

/-- A1. -/
theorem test_iadd_empty : summary (machine [0x60] [] [])
    = some (1, [0], [.unf, .unf], none) := by decide

/-- A4. -/
theorem test_isub_narrows : summary (machine [0x64] [] [128, 1])
    = some (1, [0xFFFFFF7F], [], none) := by decide

/-- A5. -/
theorem test_isub_not_narrowed_again : summary (machine [0x64] [] [0x7F, 0xFFFFFF80])
    = some (1, [0xFF], [], none) := by decide

/-- A8. -/
theorem test_iand : summary (machine [0x7E] [] [0x0000FF0F, 0x00000FF0])
    = some (1, [0x00000F00], [], none) := by decide

/-- A9. -/
theorem test_ior : summary (machine [0xB0] [] [0x0000FF00, 0x000000FF])
    = some (1, [0x0000FFFF], [], none) := by decide

/-- L4. -/
theorem test_iinc_aliases_top : summary (machine [0x84, 0x00, 0x01] [] [0x7FFFFFFF])
    = some (3, [0x80000000], [], none) := by decide

/-- C4. -/
theorem test_ifeq_empty_taken : summary (machine [0x99, 0x00, 0x04, 0x00, 0xFF] [] [])
    = some (4, [], [.unf], none) := by decide

/-- C10. -/
theorem test_ifeq_wild : summary ({ machine [0x10, 0x00, 0x99, 0x7F, 0xFF, 0xFF] [] [0] with pc := 2 })
    = some (2, [0], [], some ⟨.branchTargetOutOfRange, 2, 32769⟩) := by decide

/-- C6. -/
theorem test_iflt_taken : summary ({ machine [0x10, 0xFF, 0x9B, 0x00, 0x05, 0x00, 0x00, 0xFF] [] [0xFFFFFFFF] with pc := 2 })
    = some (7, [], [], none) := by decide

/-- C7. -/
theorem test_iflt_zero_not_taken : summary ({ machine [0x10, 0x00, 0x9B, 0x00, 0x05, 0x00, 0x00, 0xFF] [] [0] with pc := 2 })
    = some (5, [], [], none) := by decide

/-- C8. -/
theorem test_ifIcmpeq_full_width : summary (machine [0x9F, 0x00, 0x04, 0xFE, 0xFF] [] [256, 0])
    = some (3, [], [], none) := by decide

/-- C5. -/
theorem test_goto_back : summary ({ machine [0x00, 0xA7, 0xFF, 0xFE] [] [] with pc := 1 })
    = some (1, [], [], some ⟨.branchTargetOutOfRange, 1, -1⟩) := by decide

/-- C3. -/
theorem test_goto_last_byte : summary (machine [0xA7, 0x00, 0x03, 0xFF] [] [])
    = some (3, [], [], none) := by decide

/-- I1. -/
theorem test_in_end : summary (machine [0xFC] [] [])
    = some (1, [0, 0xFFFFFFFF], [], none) := by decide

/-- I2. -/
theorem test_in_byte : summary ({ machine [0xFC] [] [] with input := [0x80] })
    = some (1, [0x80], [], none) := by decide

/-- I7. -/
theorem test_out_empty : summary (machine [0xFD] [] [])
    = some (1, [], [.unf], none) := by decide

/-- D13. -/
theorem test_err : summary (machine [0xFE] [] [])
    = some (1, [], [.err], none) := by decide

/-- D14. -/
theorem test_halt : summary (machine [0xFF] [] [])
    = some (1, [], [], none) := by decide

/-- D14. -/
theorem test_step_past_the_end : summary ({ machine [0xFF] [] [] with pc := 1 })
    = some (1, [], [], some ⟨.fetchOutOfRange, 1, 1⟩) := by decide

/-- D4. -/
theorem test_wide_bipush : summary (machine [0xC4, 0x10, 0x05, 0xFF] [] [])
    = some (3, [5], [], none) := by decide

/-- D8. -/
theorem test_wide_goto : summary (machine [0xC4, 0xA7, 0x00, 0x04, 0x00, 0xFF] [] [])
    = some (5, [], [], none) := by decide

/-- L2. -/
theorem test_wideIload_outside : summary ({ machine [0xC4, 0x15, 0x01, 0xF4] [] [] with lv := 500 })
    = some (0, [], [], some ⟨.localIndexOutOfRange, 0, 1000⟩) := by decide

/-- L3. -/
theorem test_wideIload_last : summary ({ machine [0xC4, 0x15, 0x01, 0xF3] [] [] with lv := 500, stk := [(999, 0x2A)] })
    = some (4, [0x2A], [], none) := by decide

/-- D3. -/
theorem test_wideWide : summary (machine [0xC4, 0xC4, 0x15, 0x00, 0x00] [] [])
    = some (0, [], [], some ⟨.nestedPrefix, 0, 1⟩) := by decide

/-- D2. -/
theorem test_wide_cut_off : summary (machine [0xC4] [] [])
    = some (0, [], [], some ⟨.fetchOutOfRange, 0, 1⟩) := by decide

/-- D15. -/
theorem test_unrecognized : summary (machine [0xB6, 0x00] [] [3])
    = some (1, [3], [], none) := by decide

/-- L1: the low byte is sign-extended before the store, and the popped entry keeps its word. -/
theorem test_istore_narrows :
    (after (machine [0x36, 0x05] [] [0x000001FF])).map (fun t => (t.stk, t.sp))
      = some ([(0, 0x000001FF), (5, 0xFFFFFFFF)], -1) := by decide

/-- S6. -/
theorem test_wideIstore :
    (after (machine [0xC4, 0x36, 0x01, 0x2C] [] [0x2A])).map (fun t => (t.pc, t.stk, t.wide))
      = some (4, [(0, 0x2A), (300, 0x2A)], false) := by decide

/-- P3, step 5: the increment is one byte under the prefix too. -/
theorem test_wideIinc :
    (after { machine [0xC4, 0x84, 0x01, 0x00, 0x05] [] [] with
        lv := 500, stk := [(756, 0xFFFFFFFE)] }).map (fun t => (t.pc, t.stk))
      = some (5, [(756, 3)]) := by decide

/-- A store of the word an unlisted entry reads as removes the entry (canonical form). -/
theorem test_iinc_to_zero :
    (after { machine [0x84, 0x05, 0xFF] [] [] with stk := [(5, 1)] }).map (fun t => t.stk)
      = some [] := by decide

/-- I6. -/
theorem test_out :
    (after (machine [0xFD] [] [0x00000141])).map (fun t => (t.output, t.sp))
      = some ([0x41], -1) := by decide

/-- I8. -/
theorem test_in_held :
    step { machine [0xFC] [] [] with inputClosed := false } = .fault .heldForInput := rfl

/-- D12: under `Run` the ERR byte is not dispatched. -/
theorem test_run_stops_on_err :
    runLoop 1 (machine [0xFE] [] []) = .halted (machine [0xFE] [] []) ∧
    (machine [0xFE] [] []).haltCause = .haltedAtErr := by decide

/-! ### Reset, and the instruction placed for the next step -/

theorem test_reset_memory_wf : Memory.wf State.reset.stk = true := by decide

theorem test_reset_has_no_program : step State.reset
    = .next { State.reset with fault := some ⟨.fetchOutOfRange, 0, 0⟩ } := rfl

theorem test_withFetchWord_runs_bipush :
    summary (State.reset.withFetchWord 8 0x10) = some (2, [0], [], none) := by decide

theorem test_withFetchWord_runs_wideIinc :
    summary (State.reset.withFetchWord 16 0xC484) = some (5, [], [], none) := by decide

/-- S7: the image of the source's example. -/
theorem test_load_image :
    loadImage 0x1DEADFAD [0x1D, 0xEA, 0xDF, 0xAD, 0x00, 0x01, 0x00, 0x00, 0x00, 0x00, 0x00, 0x08,
        0x00, 0x00, 0x00, 0x01, 0xFF, 0xFF, 0xFF, 0xFE, 0x00, 0x00, 0x00, 0x00,
        0x00, 0x00, 0x00, 0x03, 0x10, 0x2A, 0xFF]
      = .ok ⟨[0x10, 0x2A, 0xFF], [0x00000001, 0xFFFFFFFE]⟩ := by rfl


/-! ### Witnesses: for each obligation with hypotheses, values that meet them all

Boundary operand stacks: empty, full, and a storage of one entry. -/

/-- An empty operand stack. -/
def empty : State := machine [0x00, 0x00, 0x00, 0x00] [7] []

/-- A full operand stack of two entries, the top one 0. -/
def full : State :=
  { machine [0x00, 0x00, 0x00, 0x00] [7] [5] with cfg := { defaultConfig with stackCap := 2 }, sp := 1 }

/-- A storage of one entry, which is used. -/
def one : State := { machine [0x00] [] [3] with cfg := { defaultConfig with stackCap := 1 } }

theorem witness_AtBoundary : empty.AtBoundary ∧ full.AtBoundary ∧ one.AtBoundary := by decide

theorem witness_FormatsAreReadFromTheirBytes :
    defaultOpc.distinct ∧ defaultOpc.find 0xB6 = none ∧
    (Opcode.halt, Instr.halt) ∈ [(Opcode.nop, Instr.nop), (.halt, .halt)] := by decide

theorem witness_DecodeOfEncodeIsTheInstruction :
    defaultOpc.distinct ∧ (Instr.wideIinc 0xFFFF 0x80).wf defaultOpc = true ∧
    (Instr.wide (.goto 0x8000)).wf defaultOpc = true ∧
    (Instr.unrecognized 0xB6).wf defaultOpc = true := by decide

theorem witness_EncodeOfDecodeIsTheBytes :
    decode defaultOpc [0xC4, 0x84, 0xFF, 0xFF, 0x80, 0x01] = .ok (.wideIinc 0xFFFF 0x80) [0x01] := by
  decide

theorem witness_CutOffInstructionIsTruncatedAtItsRead :
    defaultOpc.distinct ∧ (Instr.wideIinc 1 1).wf defaultOpc = true ∧
    4 < (encode defaultOpc (.wideIinc 1 1)).length ∧
    (Instr.wideIinc 1 1).secondOperandByte = some 3 ∧ 3 < (encode defaultOpc (.wideIinc 1 1)).length ∧
    0 < (encode defaultOpc .nop).length := by decide

theorem witness_StepRunsTheDecodedInstruction :
    let s := machine [0x00, 0xC4, 0x15, 0x01, 0xF3] [] [1]
    s.fault = none ∧ s.cfg.opc.distinct ∧
    decode s.cfg.opc (s.text.drop s.pc) = .ok .nop [0xC4, 0x15, 0x01, 0xF3] ∧
    Instr.nop.wf s.cfg.opc = true ∧
    s.text.drop s.pc = encode s.cfg.opc .nop ++ [0xC4, 0x15, 0x01, 0xF3] := by decide

theorem witness_StepPastTheEndFaults :
    let s := { machine [0x00, 0xA7, 0x00] [] [] with pc := 1 }
    let t := { machine [0x00] [] [] with pc := 1 }
    s.fault = none ∧ decode s.cfg.opc (s.text.drop s.pc) = .truncated 1 ∧
    t.fault = none ∧ t.textSize ≤ t.pc := by decide

theorem witness_FaultedMachineTakesNoStep :
    { machine [0x00] [] [] with fault := some ⟨.nestedPrefix, 0, 1⟩ }.fault ≠ none := by decide

theorem witness_StepRunsOrWaitsForInput :
    (machine [0x60] [] []).fault = none ∧
    { machine [0xFC] [] [] with inputClosed := false }.fault = none := by decide

theorem witness_ResetMeetsTheInvariants :
    defaultConfig.valid ∧ ([0x10, 0x2A] : List Byte).length < 2 ^ 32 ∧
    Memory.wf [(0, 1), (999, 2)] = true ∧ Memory.within defaultConfig.stackCap [(0, 1), (999, 2)] = true := by
  decide

/-- For `EveryStepKeepsTheInvariants`, `NoStepWritesTheImage`, `DiagnosticBitsAreSticky`, the first
clause of `NoStepReadsDiagnosticsOrOutput` and `RunsKeepTheInvariants`. -/
theorem witness_a_step_from_an_invariant_state :
    let s := machine [0x57] [7] []
    s.Inv ∧ ∃ t, step s = .next t ∧ t.events = [.unf] ∧ t.reported .unf = true := by
  exact ⟨by decide, _, rfl, by decide, by decide⟩

/-- The other two outcomes in `NoStepReadsDiagnosticsOrOutput`. -/
theorem witness_NoStepReadsDiagnosticsOrOutput :
    step { machine [0xFC] [] [] with inputClosed := false } = .fault .heldForInput ∧
    step { machine [] [] [] with fault := some ⟨.fetchOutOfRange, 0, 0⟩ }
      = .refused .stepWhileFaulted := ⟨rfl, rfl⟩

theorem witness_RaisedFaultsArePrecise :
    let s := machine [0x13, 0x00, 0x05] [] [9]
    s.fault = none ∧ ∃ t, step s = .next t ∧ t.fault = some ⟨.constIndexOutOfRange, 0, 5⟩ := by
  exact ⟨by decide, _, rfl, by decide⟩

theorem witness_OnlyInReadsTheInput :
    Instr.out ≠ .in_ ∧ Instr.out ≠ .wide .in_ ∧ ∃ t, exec .out empty = .next t := by
  exact ⟨by decide, by decide, _, rfl⟩

theorem witness_OnlyTheListedReportsAndFaultsHappen :
    one.AtBoundary ∧ (∃ t, exec .swap one = .next t ∧ t.events = [.unf, .ovf]) ∧
    one.fault = none ∧
    ∃ t, exec (.iload 1) one = .next t ∧ t.fault = some ⟨.localIndexOutOfRange, 0, 1⟩ := by
  exact ⟨by decide, ⟨_, rfl, by decide⟩, by decide, _, rfl, by decide⟩

theorem witness_PushAppendsOrReportsOverflow :
    (-1 ≤ full.sp ∧ full.sp ≤ full.cfg.stackCap - 1 ∧ full.sp = full.cfg.stackCap - 1) ∧
    (-1 ≤ empty.sp ∧ empty.sp ≤ empty.cfg.stackCap - 1 ∧ empty.sp ≠ empty.cfg.stackCap - 1) := by decide

/-- Its last clause: a push on a full stack, by BIPUSH and by IN at end of input. -/
theorem witness_PushAppendsOrReportsOverflow_caller :
    full.sp = full.cfg.stackCap - 1 ∧ full.fault = none ∧ (Instr.bipush 9).storeShape = .push ∧
    (∃ t, exec (.bipush 9) full = .next t ∧ t.fault = none) ∧ Instr.in_.storeShape = .input ∧
    ∃ t, exec .in_ full = .next t ∧ t.fault = none := by
  exact ⟨by decide, rfl, rfl, ⟨_, rfl, rfl⟩, rfl, _, rfl, rfl⟩

/-- The last clause of `PeekReadsOrReportsEmpty`. -/
theorem witness_PeekReadsOrReportsEmpty_caller :
    empty.AtBoundary ∧ Diagnostic.emp ∉ empty.events ∧
    ∃ t, exec .dup empty = .next t ∧ Diagnostic.emp ∈ t.events := by
  exact ⟨by decide, by decide, _, rfl, by decide⟩

/-- For `PeekReadsOrReportsEmpty` too. -/
theorem witness_PopRemovesOrReportsUnderflow :
    (-1 ≤ empty.sp ∧ empty.sp = -1) ∧ (-1 ≤ one.sp ∧ 0 ≤ one.sp) := by decide

theorem witness_PushesThenPopsComeBackReversed :
    -1 ≤ full.sp ∧ (full.sp + ([] : List Word).length : Int) ≤ full.cfg.stackCap - 1 ∧
    -1 ≤ empty.sp ∧ (empty.sp + ([1, 2, 3] : List Word).length : Int) ≤ empty.cfg.stackCap - 1 := by decide

/-- An unrecognized byte alone, and NOP under a prefix. -/
theorem witness_NopAndUnrecognizedOnlyAdvance :
    let s := machine [0xB6, 0x00, 0xFF] [] [1]
    let u := machine [0xC4, 0x00, 0xFF] [] [1]
    (s.wide = false ∧ s.fault = none ∧ s.cfg.opc.distinct ∧ (∀ o, s.cfg.opc.byteOf o ≠ 0xB6) ∧
      s.text.drop s.pc = [] ++ 0xB6 :: [0x00, 0xFF]) ∧
    (u.wide = false ∧ u.fault = none ∧ u.cfg.opc.distinct ∧ 0x00 = u.cfg.opc.nop ∧
      u.text.drop u.pc = [u.cfg.opc.wide] ++ 0x00 :: [0xFF]) := by
  refine ⟨⟨rfl, rfl, by decide, ?_, by decide⟩, by decide⟩
  intro o
  cases o <;> decide

theorem witness_NarrowSubtractAgreesOnSmallOperands :
    -128 ≤ (0xFFFFFF80 : Word).toInt ∧ (0xFFFFFF80 : Word).toInt ≤ 127 ∧
    -128 ≤ (127 : Word).toInt ∧ (127 : Word).toInt ≤ 127 := by decide

/-- Targets at both ends of the stream: index 0 and the last byte; alone and under WIDE. -/
theorem witness_GotoGoesToItsTarget :
    let s := { empty with pc := 2 }
    s.AtBoundary ∧
    (0 ≤ (ownOpcode s.pc false : Int) + (0xFFFE : Half).toInt ∧
      (ownOpcode s.pc false : Int) + (0xFFFE : Half).toInt < s.textSize) ∧
    (0 ≤ (ownOpcode s.pc true : Int) + (0 : Half).toInt ∧
      (ownOpcode s.pc true : Int) + (0 : Half).toInt < s.textSize) := by decide

/-- For each clause: 0 on the empty stack, the most negative word, two equal words. -/
theorem witness_TakenBranchesGoToTheirTarget :
    let s := machine [0x00, 0x00] [] [0x80000000]
    let u := machine [0x00, 0x00] [] [5, 5]
    empty.AtBoundary ∧ s.AtBoundary ∧ u.AtBoundary ∧
    (0 ≤ (ownOpcode s.pc false : Int) + (1 : Half).toInt ∧
      (ownOpcode s.pc false : Int) + (1 : Half).toInt < s.textSize) ∧
    empty.operand 0 = 0 ∧ (s.operand 0).toInt < 0 ∧ u.operand 1 = u.operand 0 := by decide

/-- For each clause: a word that is not 0, the greatest word that is not negative and 0, two words that
differ in the highest bit only. -/
theorem witness_UntakenBranchesFallThrough :
    let s := machine [0x00] [] [0x7FFFFFFF]
    let u := machine [0x00] [] [0x80000000, 0]
    s.AtBoundary ∧ u.AtBoundary ∧ empty.AtBoundary ∧
    s.operand 0 ≠ 0 ∧ 0 ≤ (s.operand 0).toInt ∧ 0 ≤ (empty.operand 0).toInt ∧
    u.operand 1 ≠ u.operand 0 := by decide

/-- Targets just outside: -1 and `TEXT_SIZE`. -/
theorem witness_WildTakenBranchesFault :
    let s := empty
    s.AtBoundary ∧ (ownOpcode s.pc false : Int) + (0xFFFF : Half).toInt < 0 ∧
    (s.textSize : Int) ≤ (ownOpcode s.pc true : Int) + (3 : Half).toInt ∧
    s.operand 0 = 0 ∧ s.operand 1 = s.operand 0 ∧
    ((machine [0x00] [] [0xFFFFFFFF]).operand 0).toInt < 0 := by decide

theorem witness_LdcWPushesTheConstant :
    full.AtBoundary ∧ full.queryConstant (0 : Half).toNat = some 7 := by decide

/-- For `IstoreStoresTheNarrowedWord` and `IincAddsInPlace` too: the last slot of the storage, narrow
and wide. -/
theorem witness_IloadPushesTheLocal :
    let s := { empty with lv := 744 }
    s.AtBoundary ∧ empty.AtBoundary ∧ s.lv + (255 : Byte).toNat < s.cfg.stackCap ∧
    empty.lv + (999 : Half).toNat < empty.cfg.stackCap := by decide

/-- The first index outside, for each clause. -/
theorem witness_IndicesOutOfRangeFault :
    let s := { empty with lv := 745 }
    empty.cpCount ≤ (1 : Half).toNat ∧ s.cfg.stackCap ≤ s.lv + (255 : Byte).toNat ∧
    empty.cfg.stackCap ≤ empty.lv + (1000 : Half).toNat := by decide

theorem witness_InPushesTheNextByte :
    let s := { full with input := [0x80, 0x01] }
    s.AtBoundary ∧ s.input = 0x80 :: [0x01] := by decide

/-- No room, room for one word, room for both. -/
theorem witness_InAtTheEndPushesSentinelAndZero :
    let s := { full with sp := 0 }
    (full.AtBoundary ∧ full.input = [] ∧ full.inputClosed = true) ∧
    (s.AtBoundary ∧ s.input = [] ∧ s.inputClosed = true) ∧
    (empty.AtBoundary ∧ empty.input = [] ∧ empty.inputClosed = true) := by decide

theorem witness_InIsHeldUntilTheSourceAnswers :
    let s := { empty with inputClosed := false }
    s.inputClosed = false ∧ s.input = [] := by decide

/-- For each clause: a covered instruction that completes, one that raises a fault, one that waits. -/
theorem witness_WideKeepsTheCoveredInstruction :
    let s := { one with inputClosed := false }
    s.wide = false ∧ s.fault = none ∧
    (Instr.dup.keepsFormat = true ∧ ∃ t, exec .dup { s with pc := s.pc + 1 } = .next t ∧
      t.fault = none) ∧
    ((Instr.goto 9).keepsFormat = true ∧ ∃ t, exec (.goto 9) { s with pc := s.pc + 1 } = .next t ∧
      t.fault = some ⟨.branchTargetOutOfRange, 1, 10⟩) ∧
    (Instr.in_.keepsFormat = true ∧ exec .in_ { s with pc := s.pc + 1 } = .fault .heldForInput) := by
  exact ⟨by decide, by decide, ⟨rfl, _, rfl, by decide⟩, ⟨rfl, _, rfl, by decide⟩, rfl, rfl⟩

theorem witness_StorelessInstructionsKeepEveryEntry :
    Instr.pop.storeShape = .nothing ∧ (∃ t, exec .pop one = .next t) ∧
    (Instr.wide .out).storeShape = .nothing ∧ ∃ t, exec (.wide .out) full = .next t := by
  exact ⟨rfl, ⟨_, rfl⟩, rfl, _, rfl⟩

theorem witness_PushingInstructionsStoreAboveTheTop :
    (Instr.bipush 1).storeShape = .push ∧ (∃ t, exec (.bipush 1) full = .next t) ∧
    full.sp = full.cfg.stackCap - 1 ∧
    (Instr.wideIload 999).storeShape = .push ∧ (∃ t, exec (.wideIload 999) empty = .next t) ∧
    empty.sp ≠ empty.cfg.stackCap - 1 := by
  exact ⟨rfl, ⟨_, rfl⟩, by decide, rfl, ⟨_, rfl⟩, by decide⟩

theorem witness_TwoOperandInstructionsStoreAboveTheRest :
    empty.AtBoundary ∧ one.AtBoundary ∧
    Instr.isub.storeShape = .twoOperands ∧ (∃ t, exec .isub empty = .next t) ∧
    Instr.swap.storeShape = .swap ∧ (∃ t, exec .swap one = .next t) ∧ one.cfg.stackCap = 1 ∧
    ∃ t, exec .swap full = .next t := by
  exact ⟨by decide, by decide, rfl, ⟨_, rfl⟩, rfl, ⟨_, rfl⟩, rfl, _, rfl⟩

theorem witness_InStoresAboveTheTop :
    full.AtBoundary ∧ empty.AtBoundary ∧ Instr.in_.storeShape = .input ∧
    (∃ t, exec .in_ full = .next t) ∧ ∃ t, exec .in_ empty = .next t := by
  exact ⟨by decide, by decide, rfl, ⟨_, rfl⟩, _, rfl⟩

theorem witness_LocalStoresStoreToTheirSlot :
    (Instr.istore 1).storeShape = .slot 1 ∧ (∃ t, exec (.istore 1) full = .next t) ∧
    (Instr.wideIinc 999 1).storeShape = .slot 999 ∧ ∃ t, exec (.wideIinc 999 1) empty = .next t := by
  exact ⟨by decide, ⟨_, rfl⟩, by decide, _, rfl⟩

theorem witness_InstructionsKeepTheOtherRegisters :
    full.wide = false ∧ ∃ t, exec .iadd full = .next t := ⟨by decide, _, rfl⟩

/-- For `RunsKeepTheInvariants` too: the four ends, from states that meet the invariants. -/
theorem witness_RunEndsInATerminalState :
    let s := { machine [0xFC] [] [] with inputClosed := false }
    (runLoop 1 (machine [0x57] [] []) = .halted { machine [0x57] [] [] with
      pc := 1, diag := 2, events := [.unf] } ∧ (machine [0x57] [] []).Inv) ∧
    (runLoop 1 (machine [0xC4, 0xC4] [] []) = .faulted { machine [0xC4, 0xC4] [] [] with
      fault := some ⟨.nestedPrefix, 0, 1⟩ } ∧ (machine [0xC4, 0xC4] [] []).Inv) ∧
    (runLoop 1 s = .held s ∧ s.Inv) ∧
    (runLoop 0 (machine [0x00] [] []) = .outOfFuel (machine [0x00] [] []) ∧
      (machine [0x00] [] []).Inv) := by
  exact ⟨⟨rfl, by decide⟩, ⟨rfl, by decide⟩, ⟨rfl, by decide⟩, rfl, by decide⟩

theorem witness_RunStopsAtAHaltByte :
    (machine [0xFF] [] [1]).fault = none ∧ (machine [0xFF] [] [1]).cfg.opc.distinct ∧
    (machine [0xFF] [] [1]).text[(machine [0xFF] [] [1]).pc]?
      = some (machine [0xFF] [] [1]).cfg.opc.halt ∧
    (machine [0xFE] [] [1]).text[(machine [0xFE] [] [1]).pc]?
      = some (machine [0xFE] [] [1]).cfg.opc.err := by decide

theorem witness_GotoZeroNeverEnds :
    let s := machine [0xA7, 0x00, 0x00, 0xFF] [] [1]
    s.fault = none ∧ s.cfg.opc.distinct ∧ s.pc < s.textSize ∧
    s.text.drop s.pc = [s.cfg.opc.goto, 0, 0] ++ [0xFF] := by decide

theorem witness_HaltCauseTellsWhereItStands :
    (machine [] [] []).cfg.opc.distinct ∧ (machine [] [] []).fault = none ∧
    { machine [] [] [] with fault := some ⟨.fetchOutOfRange, 0, 0⟩ }.fault
      = some ⟨.fetchOutOfRange, 0, 0⟩ := by decide

theorem witness_LoadReadsBackTheImage :
    4 * (Image.mk [0x10, 0x2A, 0xFF] [1, 0xFFFFFFFE]).cp.length < 2 ^ 32 ∧
    (Image.mk [0x10, 0x2A, 0xFF] [1, 0xFFFFFFFE]).text.length < 2 ^ 32 := by decide

/-- The magic number with its last bit changed; an image of 31 bytes without its last one. -/
theorem witness_BadImagesLeaveNoState :
    word 0x1D 0xEA 0xDF 0xAC ≠ defaultConfig.magic ∧
    (30 : Nat) < 20 + 4 * (Image.mk [0x10, 0x2A, 0xFF] [1, 0xFFFFFFFE]).cp.length
      + (Image.mk [0x10, 0x2A, 0xFF] [1, 0xFFFFFFFE]).text.length := by decide

end Sys2Proof.Tests
end

section
/-! PROOFS. The family 10_state.md. How many bytes the decoder reads, what a step keeps and reports,
the packaged induction over a run, which instructions touch the byte channels, that no body reads `diag`
or the output, and what reset leaves. -/

namespace Sys2Proof

/-! ### The decoder reads as many bytes as the instruction is long (R51, R82) -/

/-- Where `d` answers an instruction after `n` bytes and the front of `l`, the instruction is exactly
those bytes long. -/
def Consumes (n : Nat) (l : List Byte) (d : Decoded) : Prop :=
  ∀ i rest, d = .ok i rest → i.length + rest.length = n + l.length

theorem consumes_ok {n : Nat} {i : Instr} (l : List Byte) (h : i.length = n) :
    Consumes n l (.ok i l) := by
  rintro j rest ⟨⟩
  rw [h]

/-- The instruction as the decoder marks it under WIDE is one byte longer. -/
theorem consumes_ok_plain (w : Bool) {n : Nat} {i : Instr} (l : List Byte) (h : i.length = n) :
    Consumes (w.toNat + n) l (.ok (if w then .wide i else i) l) := by
  cases w
  · exact consumes_ok l (by simp [h])
  · exact consumes_ok l (by simp [Instr.length, h])

theorem consumes_readByte {n off : Nat} {l : List Byte} {k : Byte → List Byte → Decoded}
    (h : ∀ b r, Consumes (n + 1) r (k b r)) : Consumes n l (readByte l off k) := by
  intro i rest hr
  obtain ⟨b, r, rfl, hk⟩ := readByte_ok hr
  have := h b r i rest hk
  rw [List.length_cons]
  omega

theorem consumes_readHalf {n off : Nat} {l : List Byte} {k : Half → List Byte → Decoded}
    (h : ∀ x r, Consumes (n + 2) r (k x r)) : Consumes n l (readHalf l off k) := by
  intro i rest hr
  obtain ⟨a, b, r, rfl, hk⟩ := readHalf_ok hr
  have := h (half a b) r i rest hk
  rw [List.length_cons, List.length_cons]
  omega

/-- The opcode byte and its operands. Where no WIDE byte stands before it, it is none itself. -/
theorem consumes_decodeFrom {opc : OpcodeMap} {w : Bool} {op : Byte}
    (hw : w = false → opc.find op ≠ some .wide) (l : List Byte) (off : Nat) :
    Consumes (w.toNat + 1) l (decodeFrom opc w op l off) := by
  unfold decodeFrom
  cases hf : opc.find op with
  | none => exact consumes_ok_plain w l rfl
  | some o =>
    cases o with
    | wide =>
      cases w
      · exact absurd hf (hw rfl)
      · exact consumes_ok l rfl
    | iload | istore =>
      cases w
      · exact consumes_readByte fun _ r => consumes_ok r rfl
      · simp only [↓reduceIte]
        exact consumes_readHalf fun _ r => consumes_ok r rfl
    | iinc =>
      cases w
      · exact consumes_readByte fun _ _ => consumes_readByte fun _ r => consumes_ok r rfl
      · simp only [↓reduceIte]
        exact consumes_readHalf fun _ _ => consumes_readByte fun _ r => consumes_ok r rfl
    | bipush => exact consumes_readByte fun _ r => consumes_ok_plain w r rfl
    | ldcW | ifeq | iflt | ifIcmpeq | goto =>
      exact consumes_readHalf fun _ r => consumes_ok_plain w r rfl
    | _ => exact consumes_ok_plain w l rfl

/-- The bytes after the instruction are what its length leaves. -/
theorem length_of_decode {opc : OpcodeMap} {bytes rest : List Byte} {i : Instr}
    (h : decode opc bytes = .ok i rest) : i.length + rest.length = bytes.length := by
  suffices Consumes 0 bytes (decode opc bytes) by simpa using this i rest h
  refine consumes_readByte fun op r => ?_
  split
  · exact consumes_readByte fun op2 r2 => consumes_decodeFrom (w := true) (by simp) r2 2
  · exact consumes_decodeFrom (w := false) (fun _ => ‹_›) r 1

end Sys2Proof

namespace Sys2Proof.Machine

open State

/-! ### What a step keeps -/

/-- The instruction decoded at `pc` ends within the stream. -/
theorem decoded_within_text {s : State} {i : Instr} {rest : List Byte} (hp : s.pc ≤ s.textSize)
    (h : decode s.cfg.opc (s.text.drop s.pc) = .ok i rest) : s.pc + i.length ≤ s.textSize := by
  have := length_of_decode h
  rw [List.length_drop] at this
  unfold textSize at *
  omega

/-- The next states of a step, seen from the state before it: a fault raised and nothing else, or the
end of the body of the instruction at `pc`, begun with an empty event list. -/
theorem step_next_cases {s t : State} (h : step s = .next t) :
    (∃ c info, t = s.raiseFault c info) ∨
    ∃ i rest, decode s.cfg.opc (s.text.drop s.pc) = .ok i rest ∧ Kept s.beginStep t ∧
      (s.GoodStorage → t.GoodStorage) ∧ (s.pc + i.length ≤ s.textSize → t.pc ≤ t.textSize) := by
  obtain ⟨-, ⟨i, rest, hd, he⟩ | ⟨off, rfl⟩⟩ := step_next h
  · obtain ⟨c, info, rfl⟩ | ⟨-, hk, hg, hp⟩ := exec_next he
    · exact .inl ⟨c, info, rfl⟩
    · exact .inr ⟨i, rest, hd, hk, hg, hp⟩
  · exact .inl ⟨_, _, rfl⟩

theorem State.SameImage.textSize_eq {s t : State} (h : SameImage s t) : t.textSize = s.textSize := by
  obtain ⟨-, htext, -⟩ := h
  rw [textSize, htext, textSize]

theorem State.Inv.goodStorage {s : State} (h : s.Inv) : s.GoodStorage := by
  obtain ⟨-, -, hlo, hhi, -, -, -, hwf, hin⟩ := h
  exact ⟨⟨hlo, hhi⟩, hwf, hin⟩

theorem State.Inv.pc_le {s : State} (h : s.Inv) : s.pc ≤ s.textSize := by
  obtain ⟨-, -, -, -, hpc, -⟩ := h
  exact hpc

/-- `Inv` from what a body keeps, a good storage and a legal `pc`. -/
theorem State.Inv.of_kept {s t : State} (h : s.Inv) (hk : Kept s t) (hg : t.GoodStorage)
    (hp : t.pc ≤ t.textSize) : t.Inv := by
  obtain ⟨hv, hsize, -, -, -, hwide, hlv, -⟩ := h
  obtain ⟨-, hi, hw, -⟩ := hk
  have htext := hi.textSize_eq
  obtain ⟨hcfg, -, -, hlv'⟩ := hi
  obtain ⟨⟨hlo, hhi⟩, hwf, hin⟩ := hg
  refine ⟨?_, ?_, hlo, hhi, hp, ?_, ?_, hwf, hin⟩
  · rwa [hcfg]
  · rwa [htext]
  · rcases hw with hw | hw
    · rw [hw, hwide]
    · exact hw
  · rw [hlv', hcfg, hlv]

theorem step_keeps_inv {s t : State} (hs : s.Inv) (h : step s = .next t) : t.Inv := by
  obtain ⟨c, info, rfl⟩ | ⟨i, rest, hd, hk, hg, hp⟩ := step_next_cases h
  · exact hs
  · exact State.Inv.of_kept (s := s.beginStep) hs hk (hg hs.goodStorage)
      (hp (decoded_within_text hs.pc_le hd))

theorem step_keeps_image {s t : State} (h : step s = .next t) : s.SameImage t := by
  obtain ⟨c, info, rfl⟩ | ⟨i, rest, -, ⟨-, hi, -⟩, -⟩ := step_next_cases h
  · exact SameImage.refl s
  · exact hi

/-- Settles O12: every body keeps the storage good and the other registers, and the instruction that
is decoded lies within the stream, so falling through it does not pass `TEXT_SIZE`. -/
theorem everyStepKeepsTheInvariants : Obligations.EveryStepKeepsTheInvariants :=
  fun _ _ hs h => step_keeps_inv hs h

/-! ### Runs -/

/-- The state in which a run ends or stands. -/
def RunEnd.state : RunEnd → State
  | .halted s => s
  | .faulted s => s
  | .held s => s
  | .refused s _ => s
  | .outOfFuel s => s

/-- A run that takes no step stands where it began. -/
theorem runStops_state {s : State} {e : RunEnd} (h : runStops s = some e) : e.state = s := by
  unfold runStops at h
  split at h
  · cases h; rfl
  · split at h <;> cases h
    rfl

/-- What every step keeps holds wherever a run ends or stands. -/
theorem runLoop_keeps {P : State → Prop} (hstep : ∀ s t, P s → step s = .next t → P t) (n : Nat)
    (s : State) (hs : P s) : P (runLoop n s).state := by
  induction n generalizing s with
  | zero =>
    cases h : runStops s with
    | none => simpa [runLoop, h, RunEnd.state] using hs
    | some e => simpa [runLoop, h, runStops_state h] using hs
  | succ n ih =>
    unfold runLoop
    split
    · rwa [runStops_state ‹_›]
    · split
      · exact ih _ (hstep s _ hs ‹_›)
      · exact hs
      · exact hs

/-- Settles O55, by the induction over the run: every step keeps the invariants and the image. -/
theorem runsKeepTheInvariants : Obligations.RunsKeepTheInvariants := by
  intro n s t hs hend
  have h := runLoop_keeps (P := fun u => u.Inv ∧ s.SameImage u)
    (fun _ _ hu hst => ⟨step_keeps_inv hu.1 hst, hu.2.trans (step_keeps_image hst)⟩)
    n s ⟨hs, SameImage.refl s⟩
  rcases hend with he | he | he | he <;> rwa [he] at h

/-! ### The reports of a step (R171) -/

/-- Settles O14: a raised fault reports nothing, and a body adds to `diag` exactly the reports of its
event list, which is empty at its start. -/
theorem diagnosticBitsAreSticky : Obligations.DiagnosticBitsAreSticky := by
  intro s t h d
  obtain ⟨c, info, rfl⟩ | ⟨i, rest, -, ⟨⟨ds, hev, hrep⟩, -⟩, -⟩ := step_next_cases h
  · simp
  · rw [hrep d, hev]
    rfl

/-! ### Which bodies touch the byte channels (R160) -/

/-- What every body but IN's and OUT's does to the byte channels: nothing, when it runs to its end. -/
def ChannelSafe (s : State) (r : Result) : Prop := ∀ t, r = .done t → s.SameChannels t

theorem sameChannels_push (s : State) (v : Word) : s.SameChannels (s.push v) := by
  simp [SameChannels]

theorem sameChannels_pop (s : State) : s.SameChannels s.pop.2 := by simp [SameChannels]

theorem sameChannels_peek (s : State) : s.SameChannels s.peek.2 := by simp [SameChannels]

theorem channelSafe_done {s t : State} (h : s.SameChannels t) : ChannelSafe s (.done t) := by
  rintro u ⟨⟩
  exact h

theorem channelSafe_advance {s u : State} (h : s.SameChannels u) (n : Nat) :
    ChannelSafe s (.done (u.advance n)) := channelSafe_done h

theorem channelSafe_branchIf {c : Bool} {off : Half} {s u : State} (h : s.SameChannels u) :
    ChannelSafe s (branchIf c off u) := by
  intro t ht
  obtain ⟨p, -, rfl⟩ | rfl := branchIf_done ht
  · exact h
  · exact h

theorem channelSafe_withSlot {n : Nat} {s : State} {k : Nat → Result}
    (h : ∀ e, ChannelSafe s (k e)) : ChannelSafe s (withSlot n s k) :=
  fun t ht => h _ t (withSlot_done ht).2

theorem channelSafe_binaryOp (f : Word → Word → Word) (s : State) :
    ChannelSafe s (binaryOp f s) :=
  channelSafe_advance (((sameChannels_pop s).trans (sameChannels_pop _)).trans
    (sameChannels_push _ _)) 1

/-- Every covered body but IN's and OUT's. -/
theorem channelSafe_coveredBody {i : Instr} (hin : i ≠ .in_) (hout : i ≠ .out) (s : State) :
    ChannelSafe s (coveredBody i s) := by
  cases i with
  | in_ => exact absurd rfl hin
  | out => exact absurd rfl hout
  | bipush b => exact channelSafe_advance (sameChannels_push s _) 2
  | ldcW x =>
    simp only [coveredBody, ldcWBody]
    split
    · exact channelSafe_advance (sameChannels_push s _) 3
    · rintro t ⟨⟩
  | pop => exact channelSafe_advance (sameChannels_pop s) 1
  | dup => exact channelSafe_advance ((sameChannels_peek s).trans (sameChannels_push _ _)) 1
  | swap =>
    exact channelSafe_advance ((((sameChannels_pop s).trans (sameChannels_pop _)).trans
      (sameChannels_push _ _)).trans (sameChannels_push _ _)) 1
  | iadd | isub | iand | ior => exact channelSafe_binaryOp _ s
  | ifeq off | iflt off => exact channelSafe_branchIf (sameChannels_pop s)
  | ifIcmpeq off => exact channelSafe_branchIf ((sameChannels_pop s).trans (sameChannels_pop _))
  | goto off => exact channelSafe_branchIf (c := true) (SameChannels.refl s)
  | nop | err | halt | unrecognized => exact channelSafe_done (SameChannels.refl s)
  | _ => rintro t ⟨⟩

/-- IN writes no output. -/
theorem inBody_output {s t : State} (h : inBody s = .done t) : t.output = s.output := by
  unfold inBody at h
  obtain ⟨c, r, -, h'⟩ | ⟨-, -, h'⟩ | ⟨-, -, h'⟩ := inRead_cases s <;> rw [h'] at h <;> cases h
  · simp
  · simp

/-- OUT consumes no input. -/
theorem outBody_input {s t : State} (h : outBody s = .done t) : t.input = s.input := by
  cases h
  simp

theorem coveredBody_input {i : Instr} {s t : State} (hin : i ≠ .in_)
    (h : coveredBody i s = .done t) : t.input = s.input := by
  by_cases hout : i = .out
  · subst hout
    exact outBody_input h
  · exact (channelSafe_coveredBody hin hout s t h).1

theorem coveredBody_output {i : Instr} {s t : State} (hout : i ≠ .out)
    (h : coveredBody i s = .done t) : t.output = s.output := by
  by_cases hin : i = .in_
  · subst hin
    exact inBody_output h
  · exact (channelSafe_coveredBody hin hout s t h).2.2

/-- The bodies of the three local instructions, `len` bytes long. -/
inductive LocalBody : (State → Result) → Prop
  | load (n len : Nat) : LocalBody (loadLocal n len)
  | store (n len : Nat) : LocalBody (storeLocal n len)
  | inc (n : Nat) (c : Byte) (len : Nat) : LocalBody (incLocal n c len)

theorem LocalBody.channelSafe {body : State → Result} (h : LocalBody body) (s : State) :
    ChannelSafe s (body s) := by
  cases h with
  | load n len => exact channelSafe_withSlot fun _ => channelSafe_advance (sameChannels_push s _) len
  | store n len =>
    exact channelSafe_withSlot fun e =>
      channelSafe_advance (u := s.pop.2.setEntry e _) (sameChannels_pop s) len
  | inc n c len => exact channelSafe_withSlot fun _ => channelSafe_done (SameChannels.refl s)

/-- An instruction that runs to its end has run a covered body or one of the local instructions',
alone or under WIDE. -/
theorem wholeBody_done {i : Instr} {s t : State} (h : wholeBody i s = .done t) :
    ∃ w u, t = u.leave w ∧
      ((∃ c, i = c.aloneOrWide w ∧ coveredBody c (s.enter w) = .done u) ∨
        ∃ body, LocalBody body ∧ body (s.enter w) = .done u) := by
  cases i with
  | iload v => exact ⟨false, t, rfl, .inr ⟨_, .load _ _, h⟩⟩
  | istore v => exact ⟨false, t, rfl, .inr ⟨_, .store _ _, h⟩⟩
  | iinc v c => exact ⟨false, t, rfl, .inr ⟨_, .inc _ _ _, h⟩⟩
  | wide c =>
    obtain ⟨u, hu, rfl⟩ := underWide_done (body := coveredBody c) h
    exact ⟨true, u, rfl, .inl ⟨c, rfl, hu⟩⟩
  | wideIload v =>
    obtain ⟨u, hu, rfl⟩ := underWide_done (body := loadLocal _ _) h
    exact ⟨true, u, rfl, .inr ⟨_, .load _ _, hu⟩⟩
  | wideIstore v =>
    obtain ⟨u, hu, rfl⟩ := underWide_done (body := storeLocal _ _) h
    exact ⟨true, u, rfl, .inr ⟨_, .store _ _, hu⟩⟩
  | wideIinc v c =>
    obtain ⟨u, hu, rfl⟩ := underWide_done (body := incLocal _ _ _) h
    exact ⟨true, u, rfl, .inr ⟨_, .inc _ _ _, hu⟩⟩
  | wideWide => cases h
  | _ => exact ⟨false, t, rfl, .inl ⟨_, rfl, h⟩⟩

theorem wholeBody_input {i : Instr} {s t : State} (hin : i.storeShape ≠ .input)
    (h : wholeBody i s = .done t) : t.input = s.input := by
  obtain ⟨w, u, rfl, ⟨c, rfl, hu⟩ | ⟨body, hl, hu⟩⟩ := wholeBody_done h
  · have hc : c ≠ .in_ := by rintro rfl; cases w <;> exact hin rfl
    simpa using coveredBody_input hc hu
  · simpa using (hl.channelSafe _ u hu).1

theorem wholeBody_output {i : Instr} {s t : State} (hout : i ≠ .out) (hwout : i ≠ .wide .out)
    (h : wholeBody i s = .done t) : t.output = s.output := by
  obtain ⟨w, u, rfl, ⟨c, rfl, hu⟩ | ⟨body, hl, hu⟩⟩ := wholeBody_done h
  · have hc : c ≠ .out := by
      rintro rfl
      cases w
      · exact hout rfl
      · exact hwout rfl
    simpa using coveredBody_output hc hu
  · simpa using (hl.channelSafe _ u hu).2.2

/-- Settles O52: a raised fault keeps everything else, a body that runs to its end keeps the other
registers, and only IN's body touches the input and only OUT's the output. -/
theorem instructionsKeepTheOtherRegisters : Obligations.InstructionsKeepTheOtherRegisters := by
  intro s t i hw h
  obtain ⟨c, info, rfl⟩ | ⟨hb, ⟨-, hi, hwide, hf, hc⟩, -⟩ := exec_next h
  · exact ⟨SameImage.refl s, hw, .inr ⟨c, info, rfl⟩, rfl, fun _ => rfl, fun _ _ => rfl⟩
  · refine ⟨hi, ?_, .inl hf, hc, fun hin => wholeBody_input hin hb,
      fun ho hwo => wholeBody_output ho hwo hb⟩
    rcases hwide with hwide | hwide
    · rw [hwide, hw]
    · exact hwide

/-! ### No body reads `diag` or the output (R16, R19, R162) -/

/-- The states differ at most in `diag` and the output. -/
def State.SameButLog (s s' : State) : Prop := ∃ d o, s' = { s with diag := d, output := o }

/-- The bodies end in the same way, in states that differ at most in `diag` and the output. -/
inductive SameEnd : Result → Result → Prop
  | done {t t' : State} (h : t.SameButLog t') : SameEnd (.done t) (.done t')
  | raised (c : FaultCause) (info : Int) : SameEnd (.raised c info) (.raised c info)
  | held : SameEnd .held .held
  | illFormed : SameEnd .illFormed .illFormed

section

variable {s s' : State}

namespace State.SameButLog

/-! What the two states share. -/

theorem cfg_eq (h : s.SameButLog s') : s'.cfg = s.cfg := by obtain ⟨d, o, rfl⟩ := h; rfl
theorem textSize_eq (h : s.SameButLog s') : s'.textSize = s.textSize := by
  obtain ⟨d, o, rfl⟩ := h; rfl
theorem cp_eq (h : s.SameButLog s') : s'.cp = s.cp := by obtain ⟨d, o, rfl⟩ := h; rfl
theorem pc_eq (h : s.SameButLog s') : s'.pc = s.pc := by obtain ⟨d, o, rfl⟩ := h; rfl
theorem sp_eq (h : s.SameButLog s') : s'.sp = s.sp := by obtain ⟨d, o, rfl⟩ := h; rfl
theorem input_eq (h : s.SameButLog s') : s'.input = s.input := by obtain ⟨d, o, rfl⟩ := h; rfl
theorem inputClosed_eq (h : s.SameButLog s') : s'.inputClosed = s.inputClosed := by
  obtain ⟨d, o, rfl⟩ := h; rfl
theorem entry_eq (h : s.SameButLog s') (k : Nat) : s'.entry k = s.entry k := by
  obtain ⟨d, o, rfl⟩ := h; rfl
theorem localSlot_eq (h : s.SameButLog s') (n : Nat) : localSlot s' n = localSlot s n := by
  obtain ⟨d, o, rfl⟩ := h; rfl

/-! Each move keeps the difference within `diag` and the output. -/

theorem report (h : s.SameButLog s') (d : Diagnostic) : (s.report d).SameButLog (s'.report d) := by
  obtain ⟨d', o, rfl⟩ := h; exact ⟨_, _, rfl⟩

theorem advance (h : s.SameButLog s') (n : Nat) : (s.advance n).SameButLog (s'.advance n) := by
  obtain ⟨d, o, rfl⟩ := h; exact ⟨_, _, rfl⟩

theorem setPc (h : s.SameButLog s') (n : Nat) : (s.setPc n).SameButLog (s'.setPc n) := by
  obtain ⟨d, o, rfl⟩ := h; exact ⟨_, _, rfl⟩

theorem setSp (h : s.SameButLog s') (v : Int) : (s.setSp v).SameButLog (s'.setSp v) := by
  obtain ⟨d, o, rfl⟩ := h; exact ⟨_, _, rfl⟩

theorem setWide (h : s.SameButLog s') (b : Bool) : (s.setWide b).SameButLog (s'.setWide b) := by
  obtain ⟨d, o, rfl⟩ := h; exact ⟨_, _, rfl⟩

theorem setEntry (h : s.SameButLog s') (i : Nat) (v : Word) :
    (s.setEntry i v).SameButLog (s'.setEntry i v) := by
  obtain ⟨d, o, rfl⟩ := h; exact ⟨_, _, rfl⟩

theorem outWrite (h : s.SameButLog s') (b : Byte) :
    (s.outWrite b).SameButLog (s'.outWrite b) := by
  obtain ⟨d, o, rfl⟩ := h; exact ⟨_, _, rfl⟩

theorem setInput (h : s.SameButLog s') (l : List Byte) :
    (s.setInput l).SameButLog (s'.setInput l) := by
  obtain ⟨d, o, rfl⟩ := h; exact ⟨_, _, rfl⟩

theorem raiseFault (h : s.SameButLog s') (c : FaultCause) (info : Int) :
    (s.raiseFault c info).SameButLog (s'.raiseFault c info) := by
  obtain ⟨d, o, rfl⟩ := h; exact ⟨_, _, rfl⟩

theorem push (h : s.SameButLog s') (v : Word) : (s.push v).SameButLog (s'.push v) := by
  unfold State.push
  rw [h.sp_eq, h.cfg_eq]
  split
  · exact h.report .ovf
  · exact (h.setSp _).setEntry _ v

/-- A pop yields the same word. -/
theorem pop (h : s.SameButLog s') : s'.pop.1 = s.pop.1 ∧ s.pop.2.SameButLog s'.pop.2 := by
  unfold State.pop
  rw [h.sp_eq, h.entry_eq]
  split
  · exact ⟨rfl, h.report .unf⟩
  · exact ⟨rfl, h.setSp _⟩

/-- A peek yields the same word. -/
theorem peek (h : s.SameButLog s') : s'.peek.1 = s.peek.1 ∧ s.peek.2.SameButLog s'.peek.2 := by
  unfold State.peek
  rw [h.sp_eq, h.entry_eq]
  split
  · exact ⟨rfl, h.report .emp⟩
  · exact ⟨rfl, h⟩

end State.SameButLog

theorem sameEnd_takeBranch (h : s.SameButLog s') (off : Half) :
    SameEnd (takeBranch off s) (takeBranch off s') := by
  simp only [takeBranch, h.pc_eq, h.textSize_eq]
  split
  · exact .raised _ _
  · exact .done (h.setPc _)

theorem sameEnd_branchIf (h : s.SameButLog s') (c : Bool) (off : Half) :
    SameEnd (branchIf c off s) (branchIf c off s') := by
  cases c
  · exact .done (h.advance 3)
  · exact sameEnd_takeBranch h off

theorem sameEnd_withSlot (h : s.SameButLog s') (n : Nat) {k k' : Nat → Result}
    (hk : ∀ e, SameEnd (k e) (k' e)) : SameEnd (withSlot n s k) (withSlot n s' k') := by
  simp only [withSlot, h.cfg_eq, h.localSlot_eq]
  split
  · exact .raised _ _
  · exact hk _

theorem sameEnd_binaryOp (h : s.SameButLog s') (f : Word → Word → Word) :
    SameEnd (binaryOp f s) (binaryOp f s') := by
  obtain ⟨hb, h⟩ := h.pop
  obtain ⟨ha, h⟩ := h.pop
  simp only [binaryOp, hb, ha]
  exact .done ((h.push _).advance 1)

theorem sameEnd_loadLocal (h : s.SameButLog s') (n len : Nat) :
    SameEnd (loadLocal n len s) (loadLocal n len s') :=
  sameEnd_withSlot h n fun e => by
    rw [h.entry_eq]
    exact .done ((h.push _).advance len)

theorem sameEnd_storeLocal (h : s.SameButLog s') (n len : Nat) :
    SameEnd (storeLocal n len s) (storeLocal n len s') :=
  sameEnd_withSlot h n fun e => by
    obtain ⟨hv, hp⟩ := h.pop
    rw [hv]
    exact .done ((hp.setEntry _ _).advance len)

theorem sameEnd_incLocal (h : s.SameButLog s') (n : Nat) (c : Byte) (len : Nat) :
    SameEnd (incLocal n c len s) (incLocal n c len s') :=
  sameEnd_withSlot h n fun e => by
    rw [h.entry_eq]
    exact .done ((h.setEntry _ _).advance len)

theorem sameEnd_ldcWBody (h : s.SameButLog s') (x : Half) :
    SameEnd (ldcWBody x s) (ldcWBody x s') := by
  simp only [ldcWBody, h.cp_eq]
  split
  · exact .done ((h.push _).advance 3)
  · exact .raised _ _

theorem sameEnd_inBody (h : s.SameButLog s') : SameEnd (inBody s) (inBody s') := by
  unfold inBody inRead
  rw [h.input_eq, h.inputClosed_eq]
  cases s.input with
  | cons c r => exact .done (((h.setInput r).push _).advance 1)
  | nil =>
    cases s.inputClosed with
    | false => exact .held
    | true =>
      simp only [↓reduceIte, h.cfg_eq]
      exact .done (((h.push _).push 0).advance 1)

/-- Every body that WIDE can cover. -/
theorem sameEnd_coveredBody (h : s.SameButLog s') (i : Instr) :
    SameEnd (coveredBody i s) (coveredBody i s') := by
  obtain ⟨hb, hp⟩ := h.pop
  obtain ⟨ha, hpp⟩ := hp.pop
  obtain ⟨ht, hk⟩ := h.peek
  cases i with
  | nop | unrecognized => exact .done (h.advance 1)
  | bipush b => exact .done ((h.push _).advance 2)
  | ldcW x => exact sameEnd_ldcWBody h x
  | pop => exact .done (hp.advance 1)
  | dup =>
    simp only [coveredBody, dupBody, ht]
    exact .done ((hk.push _).advance 1)
  | swap =>
    simp only [coveredBody, swapBody, hb, ha]
    exact .done (((hpp.push _).push _).advance 1)
  | iadd | isub | iand | ior => exact sameEnd_binaryOp h _
  | ifeq off =>
    simp only [coveredBody, ifeqBody, hb]
    exact sameEnd_branchIf hp _ off
  | iflt off =>
    simp only [coveredBody, ifltBody, hb]
    exact sameEnd_branchIf hp _ off
  | ifIcmpeq off =>
    simp only [coveredBody, ifIcmpeqBody, hb, ha]
    exact sameEnd_branchIf hpp _ off
  | goto off => exact sameEnd_takeBranch h off
  | in_ => exact sameEnd_inBody h
  | out =>
    simp only [coveredBody, outBody, hb]
    exact .done ((hp.outWrite _).advance 1)
  | err =>
    simp only [coveredBody, errBody, h.textSize_eq]
    exact .done ((h.report _).setPc _)
  | halt =>
    simp only [coveredBody, haltBody, h.textSize_eq]
    exact .done (h.setPc _)
  | _ => exact .illFormed

theorem sameEnd_underWide {body : State → Result}
    (hb : ∀ {u u' : State}, u.SameButLog u' → SameEnd (body u) (body u')) (h : s.SameButLog s') :
    SameEnd (underWide body s) (underWide body s') := by
  have he := hb ((h.setWide true).advance 1)
  unfold underWide
  generalize body ((s.setWide true).advance 1) = r, body ((s'.setWide true).advance 1) = r' at he
  cases he with
  | done ht => exact .done (ht.setWide false)
  | raised c info => exact .raised c info
  | held => exact .held
  | illFormed => exact .illFormed

theorem wholeBody_of_keepsFormat {i : Instr} (h : i.keepsFormat = true) :
    wholeBody i s = coveredBody i s := by
  cases i with
  | iload _ | istore _ | iinc _ _ | wide _ | wideIload _ | wideIstore _ | wideIinc _ _ | wideWide =>
    cases h
  | _ => rfl

theorem sameEnd_wholeBody (h : s.SameButLog s') (i : Instr) :
    SameEnd (wholeBody i s) (wholeBody i s') := by
  by_cases hk : i.keepsFormat = true
  · rw [wholeBody_of_keepsFormat hk, wholeBody_of_keepsFormat hk]
    exact sameEnd_coveredBody h i
  cases i with
  | iload v => exact sameEnd_loadLocal h _ 2
  | istore v => exact sameEnd_storeLocal h _ 2
  | iinc v c => exact sameEnd_incLocal h _ c 3
  | wide c => exact sameEnd_underWide (fun hu => sameEnd_coveredBody hu c) h
  | wideIload v => exact sameEnd_underWide (fun hu => sameEnd_loadLocal hu _ 3) h
  | wideIstore v => exact sameEnd_underWide (fun hu => sameEnd_storeLocal hu _ 3) h
  | wideIinc v c => exact sameEnd_underWide (fun hu => sameEnd_incLocal hu _ c 4) h
  | wideWide =>
    change SameEnd _ (.raised .nestedPrefix (s'.pc + 1))
    rw [h.pc_eq]
    exact .raised _ _
  | _ => exact absurd rfl hk

end

/-- The outcomes are the same, next states but for `diag` and the output. -/
inductive SameOutcome :
    Host.Outcome State Fault Refusal → Host.Outcome State Fault Refusal → Prop
  | next {t t' : State} (h : t.SameButLog t') : SameOutcome (.next t) (.next t')
  | fault (r : Fault) : SameOutcome (.fault r) (.fault r)
  | refused (r : Refusal) : SameOutcome (.refused r) (.refused r)

theorem sameOutcome_finish {s s' : State} {r r' : Result} (h : s.SameButLog s')
    (hr : SameEnd r r') : SameOutcome (finish s r) (finish s' r') := by
  cases hr with
  | done ht => exact .next ht
  | raised c info => exact .next (h.raiseFault c info)
  | held => exact .fault _
  | illFormed => exact .refused _

theorem sameOutcome_exec {s s' : State} (h : s.SameButLog s') (i : Instr) :
    SameOutcome (exec i s) (exec i s') := by
  rw [exec_eq_wholeBody, exec_eq_wholeBody]
  exact sameOutcome_finish h (sameEnd_wholeBody h i)

/-- A step begins by emptying the event list, so that what it held before does not matter either. -/
theorem sameOutcome_step (s : State) (d : BitVec 4) (ev : List Diagnostic) (o : List Byte) :
    SameOutcome (step s) (step { s with diag := d, events := ev, output := o }) := by
  have hb : s.beginStep.SameButLog (beginStep { s with diag := d, events := ev, output := o }) :=
    ⟨d, o, rfl⟩
  unfold step stepRunning fetch
  dsimp only
  split
  · split
    · exact sameOutcome_exec hb _
    · exact sameOutcome_finish hb (.raised _ _)
  · exact .refused _

/-- Settles O16: the two steps have the same outcome, next states but for `diag` and the output. -/
theorem noStepReadsDiagnosticsOrOutput : Obligations.NoStepReadsDiagnosticsOrOutput := by
  intro s d ev o
  have h := sameOutcome_step s d ev o
  generalize step s = a, step { s with diag := d, events := ev, output := o } = b at h
  cases h with
  | next ht =>
    obtain ⟨d', o', rfl⟩ := ht
    refine ⟨?_, by rintro r ⟨⟩, by rintro r ⟨⟩⟩
    rintro t ⟨⟩
    exact ⟨_, rfl, rfl, rfl⟩
  | fault r => exact ⟨by rintro t ⟨⟩, fun _ hr => hr, by rintro r ⟨⟩⟩
  | refused r => exact ⟨by rintro t ⟨⟩, by rintro r ⟨⟩, fun _ hr => hr⟩

/-! ### Reset (R23, R200) -/

/-- A run takes no step where the loop stops at once. -/
theorem runLoop_of_runStops {s : State} {e : RunEnd} (h : runStops s = some e) (n : Nat) :
    runLoop n s = e := by
  cases n <;> simp [runLoop, h]

/-- Without a fault the machine is running unless the terminal condition holds (R21). -/
theorem status_eq_running_iff {s : State} (h : s.fault = none) :
    s.status = .running ↔ ¬ s.terminal = true := by
  simp [status, h]

/-- After reset the terminal condition looks at the first byte of the image. -/
theorem resetWith_terminal (cfg : Config) (img : Image) (m : Memory) (input : List Byte)
    (closed : Bool) :
    (State.resetWith cfg img m input closed).terminal = true ↔
      img.text = [] ∨ img.text.head? = some cfg.opc.halt ∨ img.text.head? = some cfg.opc.err := by
  simp [terminal, standsOn, textSize, OpcodeMap.byteOf, List.head?_eq_getElem?, or_assoc]

/-- Settles O10: every register is a field of `State.resetWith`, and a machine whose fault register is
`none` is running unless the terminal condition holds. -/
theorem resetLeavesTheseValues : Obligations.ResetLeavesTheseValues := by
  intro cfg img m input closed s
  have hf : s.fault = none := rfl
  have hdiag : s.diag = 0 := rfl
  have ht := resetWith_terminal cfg img m input closed
  refine ⟨rfl, rfl, rfl, rfl, rfl, ?_, rfl, rfl, rfl, rfl, rfl, ?_, ?_, rfl, rfl, rfl, rfl⟩
  · intro d
    simp [reported, hdiag]
  · rw [status_eq_running_iff hf, ht, not_or, not_or]
  · intro hr n
    have h : s.terminal = true := not_not.1 (mt (status_eq_running_iff hf).2 hr)
    exact runLoop_of_runStops (by simp [runStops, hf, h]) n

/-- Settles O11: at reset the stack is empty, `pc` is 0 and `lv` is `LV_RESET`; the default parameters
are valid. -/
theorem resetMeetsTheInvariants : Obligations.ResetMeetsTheInvariants := by
  have hreset : ∀ (cfg : Config) (img : Image) (m : Memory) (input : List Byte) (closed : Bool),
      cfg.valid → img.text.length < 2 ^ 32 → Memory.wf m = true →
      Memory.within cfg.stackCap m = true → (State.resetWith cfg img m input closed).Inv := by
    intro cfg img m input closed hv hsize hwf hin
    refine ⟨hv, hsize, by simp, ?_, Nat.zero_le _, rfl, rfl, hwf, hin⟩
    have := hv.1
    simp only [resetWith_sp, resetWith_cfg]
    omega
  exact ⟨hreset, hreset defaultConfig ⟨[], []⟩ [] [] true (by decide) (by decide) rfl rfl⟩

end Sys2Proof.Machine
end

section
/-! PROOFS. The family 20_memory.md. Where the decoder stops on an instruction that is cut off, the
step there, and which entries of the stack storage each instruction stores to. -/

namespace Sys2Proof

/-! ### An instruction cut off by the end of the stream (R36, R175) -/

/-- A reader `d` that stands at offset `off` of an instruction and needs all of `l`: on only the first
bytes of `l` it stops at the first byte missing, or at the byte before that one where it is the
`second` byte of a two-byte operand. -/
def CutAtRead (second : Option Nat) (off : Nat) (l : List Byte) (d : List Byte → Decoded) : Prop :=
  ∀ m < l.length,
    d (l.take m) = .truncated (if second = some (off + m) then off + m - 1 else off + m)

section

variable {second : Option Nat} {off : Nat} {l : List Byte}

theorem cutAtRead_nil (d : List Byte → Decoded) : CutAtRead second off [] d :=
  fun _ hm => absurd hm (Nat.not_lt_zero _)

theorem cutAtRead_readByte {b : Byte} {k : Byte → List Byte → Decoded} (hs : second ≠ some off)
    (h : CutAtRead second (off + 1) l (k b)) :
    CutAtRead second off (b :: l) (fun r => readByte r off k)
  | 0, _ => by simp [hs]
  | m + 1, hm => by
    have := h m (Nat.lt_of_succ_lt_succ hm)
    simpa [Nat.add_right_comm off m 1, Nat.add_assoc off 1 m, Nat.add_comm 1 m] using this

theorem cutAtRead_readHalf {x : Half} {k : Half → List Byte → Decoded}
    (h : CutAtRead (some (off + 1)) (off + 2) l (k x)) :
    CutAtRead (some (off + 1)) off (Half.hi x :: Half.lo x :: l) (fun r => readHalf r off k)
  | 0, _ => by simp [readHalf]
  | 1, _ => by simp [readHalf]
  | m + 2, hm => by
    have := h m (Nat.lt_of_succ_lt_succ (Nat.lt_of_succ_lt_succ hm))
    simpa [half_hi_lo, Nat.add_assoc, Nat.add_comm 2 m] using this

end

/-- The opcode byte, and a WIDE byte before it, are no byte of a two-byte operand. -/
theorem Instr.two_le_secondOperandByte {i : Instr} {k : Nat} (h : i.secondOperandByte = some k) :
    2 ≤ k := by
  induction i generalizing k with
  | wide c ih =>
    obtain ⟨j, hj, rfl⟩ := Option.map_eq_some_iff.1 h
    have := ih hj
    omega
  | _ => cases h <;> omega

theorem Instr.secondOperandByte_ne {k : Nat} (i : Instr) (hk : k < 2) :
    i.secondOperandByte ≠ some k := fun h => by
  have := i.two_le_secondOperandByte h
  omega

section

variable {opc : OpcodeMap} (i : Instr) {op : Byte} {args : List Byte}

/-- Without WIDE the operands start at offset 1. -/
theorem cutAtRead_decode (hop : opc.find op ≠ some .wide)
    (h : CutAtRead i.secondOperandByte 1 args (decodeFrom opc false op · 1)) :
    CutAtRead i.secondOperandByte 0 (op :: args) (decode opc) := by
  refine cutAtRead_readByte (i.secondOperandByte_ne (by decide)) ?_
  split
  · exact absurd ‹_› hop
  · exact h

/-- Under WIDE they start at offset 2. -/
theorem cutAtRead_decode_wide (hd : opc.distinct)
    (h : CutAtRead i.secondOperandByte 2 args (decodeFrom opc true op · 2)) :
    CutAtRead i.secondOperandByte 0 (opc.wide :: op :: args) (decode opc) := by
  refine cutAtRead_readByte (i.secondOperandByte_ne (by decide)) ?_
  rw [show opc.find opc.wide = some .wide from OpcodeMap.find_byteOf hd .wide]
  exact cutAtRead_readByte (i.secondOperandByte_ne (by decide)) h

end

/-- The encoding of `c` is an opcode byte, not that of WIDE, and operands, which the decoder reads
after it, alone (`w` false) or under WIDE. -/
def OperandsCut (opc : OpcodeMap) (w : Bool) (c : Instr) : Prop :=
  ∃ op args, encode opc c = op :: args ∧ opc.find op ≠ some .wide ∧
    CutAtRead (c.aloneOrWide w).secondOperandByte (w.toNat + 1) args
      (decodeFrom opc w op · (w.toNat + 1))

/-- What WIDE covers is well formed as an instruction of its own. -/
theorem Instr.wf_of_wide {opc : OpcodeMap} {c : Instr} (h : (Instr.wide c).wf opc = true) :
    c.keepsFormat = true ∧ c.wf opc = true := by
  obtain ⟨hk, hwf⟩ := Bool.and_eq_true_iff.1 h
  refine ⟨hk, ?_⟩
  cases c with
  | iload _ | istore _ | iinc _ _ | wide _ | wideIload _ | wideIstore _ | wideIinc _ _ | wideWide =>
    cases hk
  | _ => exact hwf

section

variable {opc : OpcodeMap} (hd : opc.distinct) (w : Bool) {c : Instr}

include hd

theorem OpcodeMap.find_byteOf_ne_wide {o : Opcode} (ho : o ≠ .wide) :
    opc.find (opc.byteOf o) ≠ some .wide := by
  rw [OpcodeMap.find_byteOf hd]
  simpa using ho

theorem operandsCut_none (o : Opcode) (ho : o ≠ .wide) (he : encode opc c = [opc.byteOf o]) :
    OperandsCut opc w c :=
  ⟨_, _, he, OpcodeMap.find_byteOf_ne_wide hd ho, cutAtRead_nil _⟩

theorem operandsCut_bipush (b : Byte) : OperandsCut opc w (.bipush b) := by
  refine ⟨_, _, rfl, OpcodeMap.find_byteOf_ne_wide hd (o := .bipush) (by decide), ?_⟩
  unfold decodeFrom
  rw [show opc.find opc.bipush = some .bipush from OpcodeMap.find_byteOf hd .bipush]
  refine cutAtRead_readByte ?_ (cutAtRead_nil _)
  cases w <;> simp [Instr.aloneOrWide, Instr.secondOperandByte]

/-- LDC_W and the branches. -/
theorem operandsCut_half {x : Half} (o : Opcode)
    (ho : o ∈ [Opcode.ldcW, .ifeq, .iflt, .ifIcmpeq, .goto])
    (he : encode opc c = [opc.byteOf o, Half.hi x, Half.lo x]) (hs : c.secondOperandByte = some 2) :
    OperandsCut opc w c := by
  have hs : (c.aloneOrWide w).secondOperandByte = some (w.toNat + 1 + 1) := by
    cases w <;> simp [Instr.aloneOrWide, Instr.secondOperandByte, hs]
  refine ⟨_, _, he, OpcodeMap.find_byteOf_ne_wide hd (by rintro rfl; simp at ho), ?_⟩
  rw [hs]
  unfold decodeFrom
  rw [OpcodeMap.find_byteOf hd]
  simp only [List.mem_cons, List.not_mem_nil, or_false] at ho
  rcases ho with rfl | rfl | rfl | rfl | rfl <;> exact cutAtRead_readHalf (cutAtRead_nil _)

/-- Every instruction whose format WIDE keeps. -/
theorem operandsCut_of_keepsFormat (hk : c.keepsFormat = true) (hwf : c.wf opc = true) :
    OperandsCut opc w c := by
  cases c with
  | nop => exact operandsCut_none hd w .nop (by decide) rfl
  | pop => exact operandsCut_none hd w .pop (by decide) rfl
  | dup => exact operandsCut_none hd w .dup (by decide) rfl
  | swap => exact operandsCut_none hd w .swap (by decide) rfl
  | iadd => exact operandsCut_none hd w .iadd (by decide) rfl
  | isub => exact operandsCut_none hd w .isub (by decide) rfl
  | iand => exact operandsCut_none hd w .iand (by decide) rfl
  | ior => exact operandsCut_none hd w .ior (by decide) rfl
  | in_ => exact operandsCut_none hd w .in_ (by decide) rfl
  | out => exact operandsCut_none hd w .out (by decide) rfl
  | err => exact operandsCut_none hd w .err (by decide) rfl
  | halt => exact operandsCut_none hd w .halt (by decide) rfl
  | bipush b => exact operandsCut_bipush hd w b
  | ldcW x => exact operandsCut_half hd w .ldcW (by decide) rfl rfl
  | ifeq x => exact operandsCut_half hd w .ifeq (by decide) rfl rfl
  | iflt x => exact operandsCut_half hd w .iflt (by decide) rfl rfl
  | ifIcmpeq x => exact operandsCut_half hd w .ifIcmpeq (by decide) rfl rfl
  | goto x => exact operandsCut_half hd w .goto (by decide) rfl rfl
  | unrecognized b =>
    refine ⟨_, _, rfl, ?_, cutAtRead_nil _⟩
    rw [Option.isNone_iff_eq_none.1 hwf]
    simp
  | _ => cases hk

/-- Every instruction is cut at one of its reads: the local instructions have WIDE formats of their
own, the others are one opcode byte and its operands, alone or under WIDE. -/
theorem cutAtRead_encode {i : Instr} (hwf : i.wf opc = true) :
    CutAtRead i.secondOperandByte 0 (encode opc i) (decode opc) := by
  by_cases hk : i.keepsFormat = true
  · obtain ⟨op, args, he, hop, h⟩ := operandsCut_of_keepsFormat hd false hk hwf
    rw [he]
    exact cutAtRead_decode i hop h
  have hload : opc.find opc.iload = some .iload := OpcodeMap.find_byteOf hd .iload
  have hstore : opc.find opc.istore = some .istore := OpcodeMap.find_byteOf hd .istore
  have hinc : opc.find opc.iinc = some .iinc := OpcodeMap.find_byteOf hd .iinc
  cases i with
  | wide c =>
    obtain ⟨hkc, hwfc⟩ := Instr.wf_of_wide hwf
    obtain ⟨op, args, he, -, h⟩ := operandsCut_of_keepsFormat hd true hkc hwfc
    rw [encode, he]
    exact cutAtRead_decode_wide _ hd h
  | iload v | istore v =>
    refine cutAtRead_decode _ (by simp [hload, hstore]) ?_
    simp only [decodeFrom, hload, hstore]
    exact cutAtRead_readByte nofun (cutAtRead_nil _)
  | iinc v c =>
    refine cutAtRead_decode _ (by simp [hinc]) ?_
    simp only [decodeFrom, hinc]
    exact cutAtRead_readByte nofun (cutAtRead_readByte nofun (cutAtRead_nil _))
  | wideIload v | wideIstore v =>
    refine cutAtRead_decode_wide _ hd ?_
    simp only [decodeFrom, hload, hstore, ↓reduceIte]
    exact cutAtRead_readHalf (cutAtRead_nil _)
  | wideIinc v c =>
    refine cutAtRead_decode_wide _ hd ?_
    simp only [decodeFrom, hinc, ↓reduceIte]
    exact cutAtRead_readHalf (cutAtRead_readByte (by decide) (cutAtRead_nil _))
  | wideWide => exact cutAtRead_decode_wide _ hd (cutAtRead_nil _)
  | _ => exact absurd rfl hk

end

/-- Settles O5: the encoding is cut at one of its reads, counted from its first byte. -/
theorem cutOffInstructionIsTruncatedAtItsRead :
    Obligations.CutOffInstructionIsTruncatedAtItsRead := by
  intro opc i n hd hwf hn
  simpa using cutAtRead_encode hd hwf n hn

end Sys2Proof

namespace Sys2Proof.Machine

open State

/-! ### A step whose bytes are not there (R36, R94) -/

/-- The step faults with the index of the first byte of the read that failed. -/
theorem step_of_truncated {s : State} {off : Nat} (hf : s.fault = none)
    (h : decode s.cfg.opc (s.text.drop s.pc) = .truncated off) :
    step s = .next (s.raiseFault .fetchOutOfRange (s.pc + off)) := by
  simp only [step, stepRunning, fetch, hf, h, finish_raised]
  rfl

/-- At and beyond the end of the stream there is no first byte. -/
theorem decode_at_end {s : State} (h : s.textSize ≤ s.pc) :
    decode s.cfg.opc (s.text.drop s.pc) = .truncated 0 := by
  rw [List.drop_eq_nil_of_le h]
  rfl

/-- Settles O7: the step raises the fault for the offset where decoding is truncated, which at the end
of the stream is 0. -/
theorem stepPastTheEndFaults : Obligations.StepPastTheEndFaults := by
  intro s hf
  refine ⟨fun off h => ⟨_, step_of_truncated hf h, raised_raiseFault s _ _⟩, fun hp => ?_⟩
  exact ⟨_, step_of_truncated hf (decode_at_end hp), by simpa using raised_raiseFault s _ s.pc⟩

/-- Settles O13: a fault raised and every body keep the image. -/
theorem noStepWritesTheImage : Obligations.NoStepWritesTheImage :=
  fun _ _ h => step_keeps_image h

/-! ### Which entries the primitives store to (R33, R70, R71) -/

/-- The entries that `n` pushes store to, from `sp` on and as far as there is room. -/
def pushedEntries (cap : Nat) : Int → Nat → List Nat
  | _, 0 => []
  | sp, n + 1 => if sp = cap - 1 then [] else (sp + 1).toNat :: pushedEntries cap (sp + 1) n

/-- On a full stack no number of pushes stores. -/
theorem pushedEntries_of_full {cap : Nat} {sp : Int} (h : sp = cap - 1) (n : Nat) :
    pushedEntries cap sp n = [] := by
  cases n with
  | zero => rfl
  | succ n => exact if_pos h

theorem pushedEntries_of_room {cap : Nat} {sp : Int} (h : sp ≠ cap - 1) (n : Nat) :
    pushedEntries cap sp (n + 1) = (sp + 1).toNat :: pushedEntries cap (sp + 1) n := if_neg h

theorem State.sameEntriesBut_push (s : State) (v : Word) :
    s.SameEntriesBut (s.push v) (pushedEntries s.cfg.stackCap s.sp 1) := by
  intro k hk
  rw [push_entry]
  refine if_neg fun ⟨hroom, he⟩ => hk ?_
  rw [pushedEntries_of_room hroom, he]
  exact List.mem_cons_self

theorem State.sameEntriesBut_pushAll (l : List Word) (s : State) :
    s.SameEntriesBut (s.pushAll l) (pushedEntries s.cfg.stackCap s.sp l.length) := by
  induction l generalizing s with
  | nil => exact SameEntriesBut.refl s []
  | cons v l ih =>
    have h : s.SameEntriesBut ((s.push v).pushAll l) _ := (s.sameEntriesBut_push v).trans (ih _)
    rw [push_cfg, push_sp] at h
    change s.SameEntriesBut ((s.push v).pushAll l) _
    by_cases hf : s.sp = s.cfg.stackCap - 1
    · simpa [hf, pushedEntries_of_full] using h
    · simpa [hf, pushedEntries] using h

/-- Pushes in a state `r` that no store has led to. -/
theorem State.SameEntriesBut.pushAll {s r : State} (h : s.SameEntriesBut r []) (hc : r.cfg = s.cfg)
    (l : List Word) :
    s.SameEntriesBut (r.pushAll l) (pushedEntries s.cfg.stackCap r.sp l.length) :=
  hc ▸ h.trans (r.sameEntriesBut_pushAll l)

theorem State.sameEntriesBut_pop (s : State) : s.SameEntriesBut s.pop.2 [] :=
  fun k _ => s.pop_entry k

theorem State.sameEntriesBut_setEntry (s : State) (i : Nat) (v : Word) :
    s.SameEntriesBut (s.setEntry i v) [i] :=
  fun _ hk => setEntry_entry_of_ne s v fun he => hk (List.mem_singleton.2 he)

theorem State.sameEntriesBut_two_pops (s : State) : s.SameEntriesBut s.pop.2.pop.2 [] :=
  s.sameEntriesBut_pop.trans (sameEntriesBut_pop _)

theorem State.sameEntriesBut_peek (s : State) : s.SameEntriesBut s.peek.2 [] :=
  fun k _ => s.peek_entry k

/-! ### Which entries each body stores to -/

/-- The entries that an instruction of each shape stores to when it runs to its end in `s`. -/
def State.storedEntries (s : State) : StoreShape → List Nat
  | .nothing => []
  | .push => pushedEntries s.cfg.stackCap s.sp 1
  | .twoOperands => pushedEntries s.cfg.stackCap s.pop.2.pop.2.sp 1
  | .swap => pushedEntries s.cfg.stackCap s.pop.2.pop.2.sp 2
  | .input => pushedEntries s.cfg.stackCap s.sp (if s.input = [] then 2 else 1)
  | .slot vidx => [localSlot s vidx]

/-- Nothing it rests on is moved by WIDE. -/
theorem State.storedEntries_enter (w : Bool) (s : State) (sh : StoreShape) :
    (s.enter w).storedEntries sh = s.storedEntries sh := by
  cases sh <;> simp [storedEntries, localSlot, pop_sp]

/-- A body that runs to its end leaves every entry but those of `ks`. -/
def StoresOnly (ks : List Nat) (s : State) (r : Result) : Prop :=
  ∀ t, r = .done t → s.SameEntriesBut t ks

section

variable {ks : List Nat} {s u : State}

theorem storesOnly_done (h : s.SameEntriesBut u ks) : StoresOnly ks s (.done u) := by
  rintro t ⟨⟩
  exact h

theorem storesOnly_advance (h : s.SameEntriesBut u ks) (n : Nat) :
    StoresOnly ks s (.done (u.advance n)) := storesOnly_done h

theorem storesOnly_branchIf {c : Bool} {off : Half} (h : s.SameEntriesBut u ks) :
    StoresOnly ks s (branchIf c off u) := by
  intro t ht
  obtain ⟨p, -, rfl⟩ | rfl := branchIf_done ht
  · exact h
  · exact h

end

theorem storesOnly_binaryOp (f : Word → Word → Word) (s : State) :
    StoresOnly (s.storedEntries .twoOperands) s (binaryOp f s) :=
  storesOnly_advance (s.sameEntriesBut_two_pops.pushAll (by simp) [f s.pop.2.pop.1 s.pop.1]) 1

theorem storesOnly_ldcWBody (x : Half) (s : State) :
    StoresOnly (s.storedEntries .push) s (ldcWBody x s) := by
  unfold ldcWBody
  split
  · exact storesOnly_advance (s.sameEntriesBut_push _) 3
  · rintro t ⟨⟩

theorem storesOnly_inBody (s : State) : StoresOnly (s.storedEntries .input) s (inBody s) := by
  intro t h
  unfold inBody at h
  obtain ⟨c, r, hin, h'⟩ | ⟨hin, -, h'⟩ | ⟨-, -, h'⟩ := inRead_cases s <;> rw [h'] at h <;> cases h
  · simp only [storedEntries, hin]
    exact sameEntriesBut_push (s.setInput r) _
  · simp only [storedEntries, hin]
    exact s.sameEntriesBut_pushAll [s.cfg.eofSentinel, 0]

/-- Every body that WIDE can cover. -/
theorem storesOnly_coveredBody (i : Instr) (s : State) :
    StoresOnly (s.storedEntries i.storeShape) s (coveredBody i s) := by
  cases i with
  | nop | halt | err | unrecognized => exact storesOnly_done (SameEntriesBut.refl s [])
  | pop => exact storesOnly_advance s.sameEntriesBut_pop 1
  | out => exact storesOnly_done (u := (s.pop.2.outWrite _).advance 1) s.sameEntriesBut_pop
  | goto off => exact storesOnly_branchIf (c := true) (SameEntriesBut.refl s [])
  | ifeq off | iflt off => exact storesOnly_branchIf s.sameEntriesBut_pop
  | ifIcmpeq off => exact storesOnly_branchIf s.sameEntriesBut_two_pops
  | bipush b => exact storesOnly_advance (s.sameEntriesBut_push _) 2
  | ldcW x => exact storesOnly_ldcWBody x s
  | dup =>
    have h := s.sameEntriesBut_peek.pushAll (by simp) [s.peek.1]
    rw [peek_sp] at h
    exact storesOnly_advance h 1
  | iadd | isub | iand | ior => exact storesOnly_binaryOp _ s
  | swap =>
    exact storesOnly_advance
      (s.sameEntriesBut_two_pops.pushAll (by simp) [s.pop.1, s.pop.2.pop.1]) 1
  | in_ => exact storesOnly_inBody s
  | _ => rintro t ⟨⟩

theorem storesOnly_loadLocal (vidx len : Nat) (s : State) :
    StoresOnly (s.storedEntries .push) s (loadLocal vidx len s) :=
  fun t h => storesOnly_advance (s.sameEntriesBut_push _) len t (withSlot_done h).2

theorem storesOnly_storeLocal (vidx len : Nat) (s : State) :
    StoresOnly (s.storedEntries (.slot vidx)) s (storeLocal vidx len s) := fun t h =>
  storesOnly_advance (s.sameEntriesBut_pop.trans (sameEntriesBut_setEntry _ _ _)) len t
    (withSlot_done h).2

theorem storesOnly_incLocal (vidx : Nat) (c : Byte) (len : Nat) (s : State) :
    StoresOnly (s.storedEntries (.slot vidx)) s (incLocal vidx c len s) := fun t h =>
  storesOnly_advance (sameEntriesBut_setEntry s _ _) len t (withSlot_done h).2

theorem storesOnly_underWide {body : State → Result} {sh : StoreShape}
    (hb : ∀ u : State, StoresOnly (u.storedEntries sh) u (body u)) (s : State) :
    StoresOnly (s.storedEntries sh) s (underWide body s) := by
  intro t h
  obtain ⟨u, hu, rfl⟩ := underWide_done h
  rw [← s.storedEntries_enter true]
  exact SameEntriesBut.of_body (w := true) (hb _ u hu)

theorem storesOnly_wholeBody (i : Instr) (s : State) :
    StoresOnly (s.storedEntries i.storeShape) s (wholeBody i s) := by
  cases i with
  | iload v => exact storesOnly_loadLocal _ _ s
  | istore v => exact storesOnly_storeLocal _ _ s
  | iinc v c => exact storesOnly_incLocal _ _ _ s
  | wide c => exact storesOnly_underWide (storesOnly_coveredBody c) s
  | wideIload v => exact storesOnly_underWide (sh := .push) (storesOnly_loadLocal _ _) s
  | wideIstore v => exact storesOnly_underWide (sh := .slot _) (storesOnly_storeLocal _ _) s
  | wideIinc v c => exact storesOnly_underWide (sh := .slot _) (storesOnly_incLocal _ _ _) s
  | wideWide => rintro t ⟨⟩
  | _ => exact storesOnly_coveredBody _ s

/-- The frame of the stack storage: a raised fault stores nothing, a body only what its shape says. -/
theorem exec_sameEntriesBut {i : Instr} {s t : State} (h : exec i s = .next t) :
    s.SameEntriesBut t (s.storedEntries i.storeShape) := by
  obtain ⟨c, info, rfl⟩ | ⟨hb, -⟩ := exec_next h
  · exact SameEntriesBut.refl s _
  · exact storesOnly_wholeBody i s t hb

/-- Settles O47: the frame of the shape that stores nothing. -/
theorem storelessInstructionsKeepEveryEntry : Obligations.StorelessInstructionsKeepEveryEntry := by
  intro s t i hi h
  have hframe := exec_sameEntriesBut h
  rwa [hi] at hframe

/-- Settles O48: the frame of the shape that pushes once. -/
theorem pushingInstructionsStoreAboveTheTop : Obligations.PushingInstructionsStoreAboveTheTop := by
  intro s t i hi h
  have hframe := exec_sameEntriesBut h
  rwa [hi] at hframe

/-- One push stores to the entry above `sp` or to none. -/
theorem pushedEntries_one_subset {cap : Nat} {sp : Int} :
    ∀ k ∈ pushedEntries cap sp 1, k ∈ [(sp + 1).toNat] := by
  intro k hk
  rw [pushedEntries] at hk
  split at hk
  · cases hk
  · exact hk

/-- Two pushes store to the two entries above `sp`, and where the storage has one entry to the first
of them alone. -/
theorem pushedEntries_two_subset {cap : Nat} {sp : Int} (h : -1 ≤ sp ∧ sp ≤ cap - 1) :
    ∀ k ∈ pushedEntries cap sp 2,
      k ∈ if cap = 1 then [(sp + 1).toNat] else [(sp + 1).toNat, (sp + 2).toNat] := by
  intro k hk
  by_cases hf : sp = cap - 1
  · rw [pushedEntries_of_full hf] at hk
    cases hk
  rw [pushedEntries_of_room hf] at hk
  split
  · rwa [pushedEntries_of_full (by omega)] at hk
  · rcases List.mem_cons.1 hk with rfl | hk
    · exact List.mem_cons_self
    · rw [List.mem_singleton.1 (pushedEntries_one_subset k hk), add_assoc]
      exact List.mem_cons_of_mem _ List.mem_cons_self

/-- Settles O49: two pops leave `sp` at `max (sp - 2) (-1)`, and the pushes store above it. -/
theorem twoOperandInstructionsStoreAboveTheRest :
    Obligations.TwoOperandInstructionsStoreAboveTheRest := by
  rintro s t i ⟨hlo, hhi, -⟩ h below
  obtain ⟨-, -, -, -, hlegal, hsp⟩ := two_pops s ⟨hlo, hhi⟩
  have hframe := exec_sameEntriesBut h
  refine ⟨fun hi => ?_, fun hi => ?_⟩ <;> rw [hi, storedEntries, hsp] at hframe
  · exact hframe.mono pushedEntries_one_subset
  · rw [hsp, pop_cfg, pop_cfg] at hlegal
    exact hframe.mono (pushedEntries_two_subset hlegal)

end Sys2Proof.Machine
end

section
/-! PROOFS. The family 30_encoding.md. What the decoder reads from the bytes of each format, that it
reads an instruction back from its encoding, and that what it reads is encoded by the bytes read. -/

namespace Sys2Proof

/-- The bytes before an instruction that stands alone (`w` false) or under WIDE. -/
def OpcodeMap.wideBytes (opc : OpcodeMap) (w : Bool) : List Byte := if w then [opc.wide] else []

/-- The term of an instruction under WIDE has the encoding of the instruction after a WIDE byte. -/
theorem encode_aloneOrWide (opc : OpcodeMap) (w : Bool) (c : Instr) :
    encode opc (c.aloneOrWide w) = opc.wideBytes w ++ encode opc c := by
  cases w <;> rfl

/-! ### The bytes of each format (R51, R57, R61) -/

/-- The opcodes with the format of one byte, each with its instruction. -/
def operandless : List (Opcode × Instr) :=
  [(.nop, .nop), (.pop, .pop), (.dup, .dup), (.swap, .swap), (.iadd, .iadd), (.isub, .isub),
   (.iand, .iand), (.ior, .ior), (.in_, .in_), (.out, .out), (.err, .err), (.halt, .halt)]

/-- The opcodes with one two-byte operand, each with its instruction. -/
def withHalf : List (Opcode × (Half → Instr)) :=
  [(.ldcW, .ldcW), (.goto, .goto), (.ifeq, .ifeq), (.iflt, .iflt), (.ifIcmpeq, .ifIcmpeq)]

/-- An opcode byte other than that of WIDE is decoded as one alone, its operands from offset 1. -/
theorem decode_cons {opc : OpcodeMap} {op : Byte} (hop : opc.find op ≠ some .wide) (l : List Byte) :
    decode opc (op :: l) = decodeFrom opc false op l 1 := by
  rw [decode, readByte_cons]
  split
  · exact absurd ‹_› hop
  · rfl

section

variable {opc : OpcodeMap} (hd : opc.distinct) (w : Bool) (l : List Byte)

include hd

theorem OpcodeMap.find_wide : opc.find opc.wide = some .wide :=
  OpcodeMap.find_byteOf hd .wide

/-- The byte after a WIDE byte is decoded as one under WIDE, its operands from offset 2. -/
theorem decode_wide_cons (op : Byte) :
    decode opc (opc.wide :: op :: l) = decodeFrom opc true op l 2 := by
  rw [decode, readByte_cons, OpcodeMap.find_wide hd]
  rfl

theorem decode_wideBytes {op : Byte} (hop : opc.find op ≠ some .wide) :
    decode opc (opc.wideBytes w ++ op :: l) = decodeFrom opc w op l (w.toNat + 1) := by
  cases w
  · exact decode_cons hop l
  · exact decode_wide_cons hd l op

theorem decode_operandless {i : Instr} (o : Opcode) (h : (o, i) ∈ operandless) :
    decode opc (opc.wideBytes w ++ opc.byteOf o :: l) = .ok (i.aloneOrWide w) l := by
  have ho : o ≠ .wide := by rintro rfl; simp [operandless] at h
  rw [decode_wideBytes hd w l (OpcodeMap.find_byteOf_ne_wide hd ho), decodeFrom,
    OpcodeMap.find_byteOf hd]
  simp only [operandless, List.mem_cons, Prod.mk.injEq, List.not_mem_nil, or_false] at h
  rcases h with ⟨rfl, rfl⟩ | ⟨rfl, rfl⟩ | ⟨rfl, rfl⟩ | ⟨rfl, rfl⟩ | ⟨rfl, rfl⟩ | ⟨rfl, rfl⟩ |
    ⟨rfl, rfl⟩ | ⟨rfl, rfl⟩ | ⟨rfl, rfl⟩ | ⟨rfl, rfl⟩ | ⟨rfl, rfl⟩ | ⟨rfl, rfl⟩ <;> cases w <;> rfl

theorem decode_unrecognized {b : Byte} (hb : opc.find b = none) :
    decode opc (opc.wideBytes w ++ b :: l) = .ok ((Instr.unrecognized b).aloneOrWide w) l := by
  rw [decode_wideBytes hd w l (by simp [hb]), decodeFrom, hb]
  cases w <;> rfl

theorem decode_bipush (b : Byte) :
    decode opc (opc.wideBytes w ++ opc.bipush :: b :: l)
      = .ok ((Instr.bipush b).aloneOrWide w) l := by
  have hf : opc.find opc.bipush = some .bipush := OpcodeMap.find_byteOf hd .bipush
  rw [decode_wideBytes hd w _ (by simp [hf]), decodeFrom, hf]
  cases w <;> rfl

theorem decode_withHalf {f : Half → Instr} (o : Opcode) (h : (o, f) ∈ withHalf) (a b : Byte) :
    decode opc (opc.wideBytes w ++ opc.byteOf o :: a :: b :: l)
      = .ok ((f (half a b)).aloneOrWide w) l := by
  have ho : o ≠ .wide := by rintro rfl; simp [withHalf] at h
  rw [decode_wideBytes hd w _ (OpcodeMap.find_byteOf_ne_wide hd ho), decodeFrom,
    OpcodeMap.find_byteOf hd]
  simp only [withHalf, List.mem_cons, Prod.mk.injEq, List.not_mem_nil, or_false] at h
  rcases h with ⟨rfl, rfl⟩ | ⟨rfl, rfl⟩ | ⟨rfl, rfl⟩ | ⟨rfl, rfl⟩ | ⟨rfl, rfl⟩ <;> cases w <;> rfl

/-! The local instructions: a one-byte index alone, a two-byte one under WIDE, and an increment of
one byte in both (R144). -/

theorem decode_iload (v : Byte) : decode opc (opc.iload :: v :: l) = .ok (.iload v) l := by
  have hf : opc.find opc.iload = some .iload := OpcodeMap.find_byteOf hd .iload
  simp [decode_cons, decodeFrom, hf]

theorem decode_wide_iload (a b : Byte) :
    decode opc (opc.wide :: opc.iload :: a :: b :: l) = .ok (.wideIload (half a b)) l := by
  have hf : opc.find opc.iload = some .iload := OpcodeMap.find_byteOf hd .iload
  simp [decode_wide_cons hd, decodeFrom, hf]

theorem decode_istore (v : Byte) : decode opc (opc.istore :: v :: l) = .ok (.istore v) l := by
  have hf : opc.find opc.istore = some .istore := OpcodeMap.find_byteOf hd .istore
  simp [decode_cons, decodeFrom, hf]

theorem decode_wide_istore (a b : Byte) :
    decode opc (opc.wide :: opc.istore :: a :: b :: l) = .ok (.wideIstore (half a b)) l := by
  have hf : opc.find opc.istore = some .istore := OpcodeMap.find_byteOf hd .istore
  simp [decode_wide_cons hd, decodeFrom, hf]

theorem decode_iinc (v c : Byte) :
    decode opc (opc.iinc :: v :: c :: l) = .ok (.iinc v c) l := by
  have hf : opc.find opc.iinc = some .iinc := OpcodeMap.find_byteOf hd .iinc
  simp [decode_cons, decodeFrom, hf]

theorem decode_wide_iinc (a b c : Byte) :
    decode opc (opc.wide :: opc.iinc :: a :: b :: c :: l) = .ok (.wideIinc (half a b) c) l := by
  have hf : opc.find opc.iinc = some .iinc := OpcodeMap.find_byteOf hd .iinc
  simp [decode_wide_cons hd, decodeFrom, hf]

theorem decode_wide_wide : decode opc (opc.wide :: opc.wide :: l) = .ok .wideWide l := by
  rw [decode_wide_cons hd, decodeFrom, OpcodeMap.find_wide hd]

end

/-- Settles O2: one lemma per format. -/
theorem formatsAreReadFromTheirBytes : Obligations.FormatsAreReadFromTheirBytes :=
  fun _ rest hd =>
    ⟨fun w _ o h => decode_operandless hd w rest o h,
     fun w _ hb => decode_unrecognized hd w rest hb,
     fun w b => decode_bipush hd w rest b,
     fun w a b =>
      ⟨decode_withHalf hd w rest .ldcW (f := .ldcW) (by simp [withHalf]) a b,
       decode_withHalf hd w rest .goto (f := .goto) (by simp [withHalf]) a b,
       decode_withHalf hd w rest .ifeq (f := .ifeq) (by simp [withHalf]) a b,
       decode_withHalf hd w rest .iflt (f := .iflt) (by simp [withHalf]) a b,
       decode_withHalf hd w rest .ifIcmpeq (f := .ifIcmpeq) (by simp [withHalf]) a b⟩,
     fun v c => ⟨decode_iload hd rest v, decode_istore hd rest v, decode_iinc hd rest v c⟩,
     fun a b c =>
      ⟨decode_wide_iload hd rest a b, decode_wide_istore hd rest a b,
       decode_wide_iinc hd rest a b c⟩,
     decode_wide_wide hd rest⟩

/-! ### An instruction is read back from its encoding (R51, R59) -/

section

variable {opc : OpcodeMap} (hd : opc.distinct) (w : Bool) (l : List Byte)

include hd

/-- A two-byte operand is put together again from its two bytes. -/
theorem decode_encode_withHalf {f : Half → Instr} (o : Opcode) (h : (o, f) ∈ withHalf) (x : Half) :
    decode opc (opc.wideBytes w ++ opc.byteOf o :: Half.hi x :: Half.lo x :: l)
      = .ok ((f x).aloneOrWide w) l := by
  rw [decode_withHalf hd w l o h, half_hi_lo]

theorem decode_encode_of_keepsFormat {c : Instr} (hk : c.keepsFormat = true)
    (hwf : c.wf opc = true) :
    decode opc (opc.wideBytes w ++ (encode opc c ++ l)) = .ok (c.aloneOrWide w) l := by
  cases c with
  | nop => exact decode_operandless hd w l .nop (by decide)
  | pop => exact decode_operandless hd w l .pop (by decide)
  | dup => exact decode_operandless hd w l .dup (by decide)
  | swap => exact decode_operandless hd w l .swap (by decide)
  | iadd => exact decode_operandless hd w l .iadd (by decide)
  | isub => exact decode_operandless hd w l .isub (by decide)
  | iand => exact decode_operandless hd w l .iand (by decide)
  | ior => exact decode_operandless hd w l .ior (by decide)
  | in_ => exact decode_operandless hd w l .in_ (by decide)
  | out => exact decode_operandless hd w l .out (by decide)
  | err => exact decode_operandless hd w l .err (by decide)
  | halt => exact decode_operandless hd w l .halt (by decide)
  | unrecognized b => exact decode_unrecognized hd w l (Option.isNone_iff_eq_none.1 hwf)
  | bipush b => exact decode_bipush hd w l b
  | ldcW x => exact decode_encode_withHalf hd w l .ldcW (f := .ldcW) (by simp [withHalf]) x
  | goto x => exact decode_encode_withHalf hd w l .goto (f := .goto) (by simp [withHalf]) x
  | ifeq x => exact decode_encode_withHalf hd w l .ifeq (f := .ifeq) (by simp [withHalf]) x
  | iflt x => exact decode_encode_withHalf hd w l .iflt (f := .iflt) (by simp [withHalf]) x
  | ifIcmpeq x =>
    exact decode_encode_withHalf hd w l .ifIcmpeq (f := .ifIcmpeq) (by simp [withHalf]) x
  | _ => cases hk

/-- The formats that WIDE keeps are read back alone and under it; the local instructions have one
format for each, and WIDE WIDE its own. -/
theorem decode_encode {i : Instr} (hwf : i.wf opc = true) :
    decode opc (encode opc i ++ l) = .ok i l := by
  by_cases hk : i.keepsFormat = true
  · exact decode_encode_of_keepsFormat hd false l hk hwf
  cases i with
  | wide c =>
    obtain ⟨hkc, hwfc⟩ := Instr.wf_of_wide hwf
    exact decode_encode_of_keepsFormat hd true l hkc hwfc
  | iload v => exact decode_iload hd l v
  | istore v => exact decode_istore hd l v
  | iinc v c => exact decode_iinc hd l v c
  | wideIload v => simpa [encode, half_hi_lo] using decode_wide_iload hd l (Half.hi v) (Half.lo v)
  | wideIstore v => simpa [encode, half_hi_lo] using decode_wide_istore hd l (Half.hi v) (Half.lo v)
  | wideIinc v c => simpa [encode, half_hi_lo] using decode_wide_iinc hd l (Half.hi v) (Half.lo v) c
  | wideWide => exact decode_wide_wide hd l
  | _ => exact absurd rfl hk

end

/-- Settles O3: each format is read back from its bytes. -/
theorem decodeOfEncodeIsTheInstruction : Obligations.DecodeOfEncodeIsTheInstruction :=
  fun _ _ rest hd hwf => decode_encode hd rest hwf

/-! ### What is read is encoded by the bytes read (R51, R61, R81) -/

/-- Where `d`, which has read the bytes `read` and stands before `l`, answers an instruction, that
is well formed and its encoding is `read` and the front of `l` up to what is left over. -/
def ReadsEncoding (opc : OpcodeMap) (read l : List Byte) (d : Decoded) : Prop :=
  ∀ i rest, d = .ok i rest → i.wf opc = true ∧ read ++ l = encode opc i ++ rest

/-- Under WIDE what keeps its format is well formed where it is so alone. -/
theorem Instr.wf_aloneOrWide {opc : OpcodeMap} {c : Instr} (w : Bool) (hk : c.keepsFormat = true)
    (hwf : c.wf opc = true) : (c.aloneOrWide w).wf opc = true := by
  cases w
  · exact hwf
  · refine Bool.and_eq_true_iff.2 ⟨hk, ?_⟩
    cases c with
    | iload _ | istore _ | iinc _ _ | wide _ | wideIload _ | wideIstore _ | wideIinc _ _
    | wideWide => cases hk
    | _ => exact hwf

section

variable {opc : OpcodeMap} {read : List Byte}

theorem readsEncoding_ok {i : Instr} (l : List Byte) (hwf : i.wf opc = true)
    (he : encode opc i = read) : ReadsEncoding opc read l (.ok i l) := by
  rintro j rest ⟨⟩
  exact ⟨hwf, by rw [he]⟩

/-- The same of an instruction as the decoder marks it under WIDE. -/
theorem readsEncoding_ok_plain {i : Instr} (w : Bool) (l : List Byte) (hk : i.keepsFormat = true)
    (hwf : i.wf opc = true) (he : opc.wideBytes w ++ encode opc i = read) :
    ReadsEncoding opc read l (.ok (if w then .wide i else i) l) := by
  have h := readsEncoding_ok l (i.wf_aloneOrWide w hk hwf) ((encode_aloneOrWide opc w i).trans he)
  cases w <;> exact h

theorem readsEncoding_readByte {off : Nat} {l : List Byte} {k : Byte → List Byte → Decoded}
    (h : ∀ b r, ReadsEncoding opc (read ++ [b]) r (k b r)) :
    ReadsEncoding opc read l (readByte l off k) := by
  intro i rest hr
  obtain ⟨b, r, rfl, hk⟩ := readByte_ok hr
  simpa using h b r i rest hk

theorem readsEncoding_readHalf {off : Nat} {l : List Byte} {k : Half → List Byte → Decoded}
    (h : ∀ x r, ReadsEncoding opc (read ++ [Half.hi x, Half.lo x]) r (k x r)) :
    ReadsEncoding opc read l (readHalf l off k) := by
  intro i rest hr
  obtain ⟨a, b, r, rfl, hk⟩ := readHalf_ok hr
  simpa using h (half a b) r i rest hk

/-- The opcode byte and its operands. Where no WIDE byte stands before it, it is none itself. -/
theorem readsEncoding_decodeFrom {w : Bool} {op : Byte}
    (hw : w = false → opc.find op ≠ some .wide) (l : List Byte) (off : Nat) :
    ReadsEncoding opc (opc.wideBytes w ++ [op]) l (decodeFrom opc w op l off) := by
  unfold decodeFrom
  cases hf : opc.find op with
  | none => exact readsEncoding_ok_plain w l rfl (by simp [Instr.wf, hf]) rfl
  | some o =>
    obtain rfl := opc.byteOf_of_find hf
    cases o with
    | wide =>
      cases w
      · exact absurd hf (hw rfl)
      · exact readsEncoding_ok l rfl rfl
    | iload | istore =>
      cases w
      · exact readsEncoding_readByte fun _ r => readsEncoding_ok r rfl rfl
      · simp only [↓reduceIte]
        exact readsEncoding_readHalf fun _ r => readsEncoding_ok r rfl rfl
    | iinc =>
      cases w
      · exact readsEncoding_readByte fun _ _ =>
          readsEncoding_readByte fun _ r => readsEncoding_ok r rfl rfl
      · simp only [↓reduceIte]
        exact readsEncoding_readHalf fun _ _ =>
          readsEncoding_readByte fun _ r => readsEncoding_ok r rfl rfl
    | bipush =>
      exact readsEncoding_readByte fun _ r =>
        readsEncoding_ok_plain w r rfl rfl (by cases w <;> rfl)
    | ldcW | ifeq | iflt | ifIcmpeq | goto =>
      exact readsEncoding_readHalf fun _ r =>
        readsEncoding_ok_plain w r rfl rfl (by cases w <;> rfl)
    | _ => exact readsEncoding_ok_plain w l rfl rfl rfl

/-- A first byte that is that of WIDE stands before what the second byte begins. -/
theorem readsEncoding_decode (bytes : List Byte) :
    ReadsEncoding opc [] bytes (decode opc bytes) := by
  refine readsEncoding_readByte fun op r => ?_
  split
  next hf =>
    obtain rfl := opc.byteOf_of_find hf
    exact readsEncoding_readByte fun op2 r2 => readsEncoding_decodeFrom (w := true) (by simp) r2 2
  next hf => exact readsEncoding_decodeFrom (w := false) (fun _ => hf) r 1

end

/-- Settles O4: nothing is read before the first byte. -/
theorem encodeOfDecodeIsTheBytes : Obligations.EncodeOfDecodeIsTheBytes :=
  fun _ i bytes rest h => readsEncoding_decode bytes i rest h

/-! ### Words of the default map (R58) -/

/-- Settles O1: the decoder is run on the fourteen words. -/
theorem wordsOfTheDefaultMapDecode : Obligations.WordsOfTheDefaultMapDecode := by
  unfold Obligations.WordsOfTheDefaultMapDecode
  decide

end Sys2Proof
end

section
/-! PROOFS. The family 40_stack_primitives.md. Push, pop and peek by themselves, how a pushing
instruction ends on a full stack, what each instruction can report, and many pushes undone by as
many pops. -/

namespace Sys2Proof.Machine

open State

/-! ### A pushing instruction on a full stack (R70) -/

theorem State.pushAll_pc (l : List Word) (s : State) : (s.pushAll l).pc = s.pc := by
  induction l generalizing s with
  | nil => rfl
  | cons v l ih => exact (ih (s.push v)).trans (s.push_pc v)

/-- On a full stack every further push leaves `sp`. -/
theorem State.pushAll_sp_of_full (l : List Word) {s : State} (h : s.sp = s.cfg.stackCap - 1) :
    (s.pushAll l).sp = s.sp := by
  induction l generalizing s with
  | nil => rfl
  | cons v l ih =>
    change ((s.push v).pushAll l).sp = s.sp
    rw [push_of_full v h]
    exact ih (s := s.report .ovf) h

/-- A body of `len` bytes that runs to its end falls through, and on a full stack `sp` stays. -/
def FallsThrough (len : Nat) (s : State) (r : Result) : Prop :=
  ∀ t, r = .done t → t.pc = s.pc + len ∧ (s.sp = s.cfg.stackCap - 1 → t.sp = s.sp)

/-- A body that pushes some words in a state with the same `pc`, `sp` and parameters. -/
theorem fallsThrough_pushAll {s u : State} (hpc : u.pc = s.pc) (hsp : u.sp = s.sp)
    (hcfg : u.cfg = s.cfg) (l : List Word) (len : Nat) :
    FallsThrough len s (.done ((u.pushAll l).advance len)) := by
  rintro t ⟨⟩
  refine ⟨by rw [advance_pc, pushAll_pc, hpc], fun hfull => ?_⟩
  rw [advance_sp, pushAll_sp_of_full l (by rw [hsp, hcfg, hfull]), hsp]

theorem fallsThrough_push (s : State) (v : Word) (len : Nat) :
    FallsThrough len s (.done ((s.push v).advance len)) :=
  fallsThrough_pushAll rfl rfl rfl [v] len

theorem fallsThrough_ldcWBody (x : Half) (s : State) : FallsThrough 3 s (ldcWBody x s) := by
  unfold ldcWBody
  split
  · exact fallsThrough_push s _ 3
  · rintro t ⟨⟩

theorem fallsThrough_inBody (s : State) : FallsThrough 1 s (inBody s) := by
  intro t h
  unfold inBody at h
  obtain ⟨c, r, -, h'⟩ | ⟨-, -, h'⟩ | ⟨-, -, h'⟩ := inRead_cases s <;> rw [h'] at h
  · exact fallsThrough_push (s.setInput r) _ 1 t h
  · exact fallsThrough_pushAll rfl rfl rfl [s.cfg.eofSentinel, 0] 1 t h
  · cases h

theorem fallsThrough_loadLocal (vidx len : Nat) (s : State) :
    FallsThrough len s (loadLocal vidx len s) :=
  fun t h => fallsThrough_push s _ len t (withSlot_done h).2

/-- A body under WIDE, seen from the state before the WIDE byte. -/
theorem fallsThrough_underWide {len : Nat} {body : State → Result}
    (hb : ∀ u, FallsThrough len u (body u)) (s : State) :
    FallsThrough (1 + len) s (underWide body s) := by
  intro t h
  obtain ⟨u, hu, rfl⟩ := underWide_done h
  obtain ⟨hpc, hsp⟩ := hb _ u hu
  exact ⟨hpc.trans (Nat.add_assoc s.pc 1 len), hsp⟩

/-- Every pushing body that WIDE can cover. -/
theorem fallsThrough_coveredBody {i : Instr} (hi : i.storeShape = .push ∨ i.storeShape = .input)
    (s : State) : FallsThrough i.length s (coveredBody i s) := by
  cases i with
  | bipush b => exact fallsThrough_push s _ 2
  | ldcW x => exact fallsThrough_ldcWBody x s
  | dup => exact fallsThrough_pushAll s.peek_pc s.peek_sp s.peek_cfg [s.peek.1] 1
  | in_ => exact fallsThrough_inBody s
  | iload _ | wide _ | wideIload _ => rintro t ⟨⟩
  | _ => obtain hi | hi := hi <;> cases hi

theorem fallsThrough_wholeBody {i : Instr} (hi : i.storeShape = .push ∨ i.storeShape = .input)
    (s : State) : FallsThrough i.length s (wholeBody i s) := by
  by_cases hk : i.keepsFormat = true
  · rw [wholeBody_of_keepsFormat hk]
    exact fallsThrough_coveredBody hi s
  cases i with
  | iload v => exact fallsThrough_loadLocal _ 2 s
  | wide c => exact fallsThrough_underWide (fallsThrough_coveredBody (i := c) hi) s
  | wideIload v => exact fallsThrough_underWide (len := 3) (fallsThrough_loadLocal _ 3) s
  | istore _ | iinc _ _ | wideIstore _ | wideIinc _ _ | wideWide =>
    obtain hi | hi := hi <;> cases hi
  | _ => exact absurd rfl hk

/-- A next state without a fault is the end of the instruction's body. -/
theorem wholeBody_done_of_no_fault {i : Instr} {s t : State} (h : exec i s = .next t)
    (hf : t.fault = none) : wholeBody i s = .done t := by
  obtain ⟨c, info, rfl⟩ | ⟨hb, -⟩ := exec_next h
  · cases hf
  · exact hb

/-- On a full stack the pushing instructions and IN store nothing. -/
theorem State.storedEntries_of_full {s : State} {sh : StoreShape} (hsh : sh = .push ∨ sh = .input)
    (h : s.sp = s.cfg.stackCap - 1) : s.storedEntries sh = [] := by
  obtain rfl | rfl := hsh <;> exact pushedEntries_of_full h _

/-! ### `push` (R70) -/

theorem pushReports_depth {s : State} (h : -1 ≤ s.sp ∧ s.sp ≤ s.cfg.stackCap - 1) :
    pushReports s.cfg.stackCap s.depth = if s.sp = s.cfg.stackCap - 1 then [.ovf] else [] := by
  have hroom : s.depth < s.cfg.stackCap ↔ s.sp ≠ s.cfg.stackCap - 1 := s.depth_lt_iff h
  simp only [pushReports, hroom, ite_not]

/-- Settles O19: push by the rules of a full stack and of one with room; on a full stack every pushing
body falls through with `sp` and the entries as they were. -/
theorem pushAppendsOrReportsOverflow : Obligations.PushAppendsOrReportsOverflow := by
  intro s v hlo hhi
  have hfin := finishes_push s v ⟨hlo, hhi⟩
  have hent := s.sameEntriesBut_push v
  rw [pushReports_depth ⟨hlo, hhi⟩] at hfin
  refine ⟨fun hfull => ?_, fun hroom => ?_, push_operands s v ⟨hlo, hhi⟩, sameChannels_push s v, ?_⟩
  · rw [pushedEntries_of_full hfull] at hent
    rw [if_pos hfull] at hfin
    exact ⟨by rw [push_sp, if_pos hfull], hent, hfin⟩
  · rw [pushedEntries_of_room hroom] at hent
    rw [if_neg hroom] at hfin
    exact ⟨by rw [push_sp, if_neg hroom], by rw [push_entry, if_pos ⟨hroom, rfl⟩], hent, hfin⟩
  · intro i t hfull _ hi h hf
    obtain ⟨hpc, hsp⟩ := fallsThrough_wholeBody hi s t (wholeBody_done_of_no_fault h hf)
    have hframe := exec_sameEntriesBut h
    rw [storedEntries_of_full hi hfull] at hframe
    exact ⟨hpc, hsp hfull, hframe⟩

/-! ### `pop` (R71) -/

theorem State.Finishes.setSp {s t : State} {p : Nat} {ds : List Diagnostic} (h : s.Finishes t p ds)
    (v : Int) : s.Finishes (t.setSp v) p ds := by
  obtain ⟨hpc, hrep, himg, hctl⟩ := h
  exact ⟨hpc, hrep, himg, hctl⟩

/-- Settles O20: pop by the rules of an empty stack and of one that holds something. -/
theorem popRemovesOrReportsUnderflow : Obligations.PopRemovesOrReportsUnderflow := by
  intro s hlo
  refine ⟨fun he => ?_, fun hsome => ?_, s.sameEntriesBut_pop, pop_operands s hlo,
    sameChannels_pop s⟩
  · rw [pop_of_empty he]
    exact ⟨rfl, he, finishes_report s .unf⟩
  · rw [pop_of_some (by omega)]
    exact ⟨rfl, rfl, (Finishes.refl s).setSp _⟩

/-! ### What each instruction can report (R172) -/

/-- From `s` to `t` no diagnostic is reported but those of `ds`. -/
def State.ReportsWithin (ds : List Diagnostic) (s t : State) : Prop :=
  ∀ d ∈ t.events, d ∈ s.events ∨ d ∈ ds

section

variable {ds : List Diagnostic} {s t u : State}

theorem State.ReportsWithin.of_events (h : t.events = s.events) : ReportsWithin ds s t :=
  fun _ hd => .inl (h ▸ hd)

theorem State.ReportsWithin.trans (h : ReportsWithin ds s t) (h' : ReportsWithin ds t u) :
    ReportsWithin ds s u := fun d hd => (h' d hd).elim (h d) .inr

theorem State.reportsWithin_report {d : Diagnostic} (h : d ∈ ds) (s : State) :
    ReportsWithin ds s (s.report d) := by
  intro e he
  rw [report_events, List.mem_append, List.mem_singleton] at he
  obtain he | rfl := he
  · exact .inl he
  · exact .inr h

theorem State.reportsWithin_push_of_room (h : s.sp ≠ s.cfg.stackCap - 1) (v : Word) :
    ReportsWithin ds s (s.push v) := by
  rw [push_of_room v h]
  exact .of_events rfl

theorem State.reportsWithin_push (h : .ovf ∈ ds) (s : State) (v : Word) :
    ReportsWithin ds s (s.push v) := by
  by_cases hf : s.sp = s.cfg.stackCap - 1
  · rw [push_of_full v hf]
    exact reportsWithin_report h s
  · exact reportsWithin_push_of_room hf v

theorem State.reportsWithin_pop (h : .unf ∈ ds) (s : State) : ReportsWithin ds s s.pop.2 := by
  by_cases he : s.sp = -1
  · rw [pop_of_empty he]
    exact reportsWithin_report h s
  · rw [pop_of_some he]
    exact .of_events rfl

theorem State.reportsWithin_two_pops (h : .unf ∈ ds) (s : State) :
    ReportsWithin ds s s.pop.2.pop.2 :=
  (reportsWithin_pop h s).trans (reportsWithin_pop h _)

theorem State.reportsWithin_peek (h : .emp ∈ ds) (s : State) : ReportsWithin ds s s.peek.2 := by
  by_cases he : s.sp = -1
  · rw [peek_of_empty he]
    exact reportsWithin_report h s
  · rw [peek_of_some he]
    exact .of_events rfl

/-- A body that runs to its end reports nothing but diagnostics of `ds`. -/
def ReportsOnly (ds : List Diagnostic) (s : State) (r : Result) : Prop :=
  ∀ t, r = .done t → ReportsWithin ds s t

theorem reportsOnly_done (h : ReportsWithin ds s t) : ReportsOnly ds s (.done t) := by
  rintro u ⟨⟩
  exact h

theorem reportsOnly_advance (h : ReportsWithin ds s t) (n : Nat) :
    ReportsOnly ds s (.done (t.advance n)) := reportsOnly_done h

theorem reportsOnly_branchIf {c : Bool} {off : Half} (h : ReportsWithin ds s u) :
    ReportsOnly ds s (branchIf c off u) := by
  intro t ht
  obtain ⟨p, -, rfl⟩ | rfl := branchIf_done ht
  · exact h
  · exact h

end

/-- Two pops leave room for one push, so that IADD, ISUB, IAND and IOR report no OVF (R172). -/
theorem State.room_after_two_pops {s : State} (h : -1 ≤ s.sp ∧ s.sp ≤ s.cfg.stackCap - 1)
    (hcap : 1 ≤ s.cfg.stackCap) : s.pop.2.pop.2.sp ≠ s.pop.2.pop.2.cfg.stackCap - 1 := by
  obtain ⟨-, -, -, -, -, hsp⟩ := two_pops s h
  rw [hsp, pop_cfg, pop_cfg]
  omega

theorem reportsOnly_binaryOp (f : Word → Word → Word) {s : State}
    (h : -1 ≤ s.sp ∧ s.sp ≤ s.cfg.stackCap - 1) (hcap : 1 ≤ s.cfg.stackCap) :
    ReportsOnly [.unf] s (binaryOp f s) :=
  reportsOnly_advance ((reportsWithin_two_pops (.head _) s).trans
    (reportsWithin_push_of_room (room_after_two_pops h hcap) _)) 1

theorem reportsOnly_ldcWBody (x : Half) (s : State) : ReportsOnly [.ovf] s (ldcWBody x s) := by
  unfold ldcWBody
  split
  · exact reportsOnly_advance (reportsWithin_push (.head _) s _) 3
  · rintro t ⟨⟩

theorem reportsOnly_inBody (s : State) : ReportsOnly [.ovf] s (inBody s) := by
  intro t h
  unfold inBody at h
  obtain ⟨c, r, -, h'⟩ | ⟨-, -, h'⟩ | ⟨-, -, h'⟩ := inRead_cases s <;> rw [h'] at h <;> cases h
  · exact reportsWithin_push (.head _) (s.setInput r) _
  · exact (reportsWithin_push (.head _) s _).trans (reportsWithin_push (.head _) _ _)

theorem reportsOnly_loadLocal (vidx len : Nat) (s : State) :
    ReportsOnly [.ovf] s (loadLocal vidx len s) := fun t h =>
  reportsOnly_advance (reportsWithin_push (.head _) s _) len t (withSlot_done h).2

theorem reportsOnly_storeLocal (vidx len : Nat) (s : State) :
    ReportsOnly [.unf] s (storeLocal vidx len s) := fun t h =>
  reportsOnly_done (t := (s.pop.2.setEntry _ _).advance len) (reportsWithin_pop (.head _) s) t
    (withSlot_done h).2

theorem reportsOnly_incLocal (vidx : Nat) (c : Byte) (len : Nat) (s : State) :
    ReportsOnly [] s (incLocal vidx c len s) := fun t h =>
  reportsOnly_done (t := (s.setEntry _ _).advance len) (.of_events rfl) t (withSlot_done h).2

/-- Every body that WIDE can cover. -/
theorem reportsOnly_coveredBody (i : Instr) {s : State}
    (h : -1 ≤ s.sp ∧ s.sp ≤ s.cfg.stackCap - 1) (hcap : 1 ≤ s.cfg.stackCap) :
    ReportsOnly i.mayReport s (coveredBody i s) := by
  cases i with
  | nop | halt | unrecognized => exact reportsOnly_done (.of_events rfl)
  | err =>
    exact reportsOnly_done (t := (s.report .err).setPc _) (reportsWithin_report (.head _) s)
  | bipush b => exact reportsOnly_advance (reportsWithin_push (.head _) s _) 2
  | ldcW x => exact reportsOnly_ldcWBody x s
  | pop => exact reportsOnly_advance (reportsWithin_pop (.head _) s) 1
  | out =>
    exact reportsOnly_done (t := (s.pop.2.outWrite _).advance 1) (reportsWithin_pop (.head _) s)
  | dup =>
    exact reportsOnly_advance ((reportsWithin_peek (by decide) s).trans
      (reportsWithin_push (by decide) _ _)) 1
  | swap =>
    exact reportsOnly_advance (((reportsWithin_two_pops (by decide) s).trans
      (reportsWithin_push (by decide) _ _)).trans (reportsWithin_push (by decide) _ _)) 1
  | iadd | isub | iand | ior => exact reportsOnly_binaryOp _ h hcap
  | goto off => exact reportsOnly_branchIf (c := true) (.of_events rfl)
  | ifeq off | iflt off => exact reportsOnly_branchIf (reportsWithin_pop (.head _) s)
  | ifIcmpeq off => exact reportsOnly_branchIf (reportsWithin_two_pops (.head _) s)
  | in_ => exact reportsOnly_inBody s
  | _ => rintro t ⟨⟩

/-- Nothing that a report rests on is moved by WIDE. -/
theorem reportsOnly_underWide {ds : List Diagnostic} {body : State → Result} {s : State}
    (hb : ReportsOnly ds (s.enter true) (body (s.enter true))) :
    ReportsOnly ds s (underWide body s) := by
  intro t h
  obtain ⟨u, hu, rfl⟩ := underWide_done h
  exact hb u hu

theorem reportsOnly_wholeBody (i : Instr) {s : State}
    (h : -1 ≤ s.sp ∧ s.sp ≤ s.cfg.stackCap - 1) (hcap : 1 ≤ s.cfg.stackCap) :
    ReportsOnly i.mayReport s (wholeBody i s) := by
  by_cases hk : i.keepsFormat = true
  · rw [wholeBody_of_keepsFormat hk]
    exact reportsOnly_coveredBody i h hcap
  cases i with
  | iload v => exact reportsOnly_loadLocal _ 2 s
  | istore v => exact reportsOnly_storeLocal _ 2 s
  | iinc v c => exact reportsOnly_incLocal _ c 3 s
  | wide c => exact reportsOnly_underWide (reportsOnly_coveredBody c (s := s.enter true) h hcap)
  | wideIload v => exact reportsOnly_underWide (reportsOnly_loadLocal _ 3 _)
  | wideIstore v => exact reportsOnly_underWide (reportsOnly_storeLocal _ 3 _)
  | wideIinc v c => exact reportsOnly_underWide (reportsOnly_incLocal _ c 4 _)
  | wideWide => rintro t ⟨⟩
  | _ => exact absurd rfl hk

/-- A raised fault reports nothing, a body only what the table of R172 lists for its instruction. -/
theorem exec_reportsWithin {i : Instr} {s t : State} (hs : s.AtBoundary) (h : exec i s = .next t) :
    ReportsWithin i.mayReport s t := by
  obtain ⟨hlo, hhi, hcap, -⟩ := hs
  obtain ⟨c, info, rfl⟩ | ⟨hb, -⟩ := exec_next h
  · rintro d ⟨⟩
  · exact reportsOnly_wholeBody i ⟨hlo, hhi⟩ hcap t hb

/-! ### `peek` (R72) -/

/-- The table of R172 lists EMP for DUP alone, and WIDE covers no second WIDE. -/
theorem eq_dup_of_emp_mem_mayReport {i : Instr} {s t : State} (h : exec i s = .next t)
    (hemp : .emp ∈ i.mayReport) : i = .dup ∨ i = .wide .dup := by
  cases i with
  | dup => exact .inl rfl
  | wide c =>
    cases c with
    | dup => exact .inr rfl
    | wide _ => cases h
    | _ => simp [Instr.mayReport] at hemp
  | _ => simp [Instr.mayReport] at hemp

/-- The host's query of the top and `peek` yield the same word (R186). -/
theorem State.queryTop_eq {s : State} (h : -1 ≤ s.sp) :
    s.queryTop = (s.peek.1, decide (s.sp = -1)) := by
  unfold queryTop
  by_cases he : s.sp = -1
  · simp [peek_of_empty he, he]
  · rw [if_pos (by omega), peek_of_some he, decide_eq_false he]

/-- Settles O21: peek by the rules of an empty stack and of one that holds something; the reports of
an instruction are among those of the table of R172, where EMP is DUP's alone. -/
theorem peekReadsOrReportsEmpty : Obligations.PeekReadsOrReportsEmpty := by
  intro s hlo
  refine ⟨fun he => ?_, fun hsome => ?_, s.sameEntriesBut_peek, s.peek_sp, sameChannels_peek s,
    queryTop_eq hlo, fun i t hs h hnot hemp => ?_⟩
  · rw [peek_of_empty he]
    exact ⟨rfl, finishes_report s .emp⟩
  · rw [peek_of_some (by omega)]
    exact ⟨rfl, rfl⟩
  · exact eq_dup_of_emp_mem_mayReport h ((exec_reportsWithin hs h .emp hemp).resolve_left hnot)

/-! ### Many pushes and many pops (R73) -/

/-- Where there is room for all of them, the pushed words stand on the operand stack, the last on
top. -/
theorem State.pushAll_of_room (l : List Word) {s : State} (hlo : -1 ≤ s.sp)
    (hroom : s.sp + l.length ≤ s.cfg.stackCap - 1) :
    (s.pushAll l).sp = s.sp + l.length ∧ (s.pushAll l).operands = l.reverse ++ s.operands ∧
      (s.pushAll l).events = s.events := by
  induction l generalizing s with
  | nil => simp [pushAll]
  | cons v l ih =>
    rw [List.length_cons] at hroom
    have hfull : s.sp ≠ s.cfg.stackCap - 1 := by omega
    have hlegal : -1 ≤ s.sp ∧ s.sp ≤ s.cfg.stackCap - 1 := by omega
    have hsp : (s.push v).sp = s.sp + 1 := by rw [push_sp, if_neg hfull]
    have hops : (s.push v).operands = v :: s.operands := by
      rw [push_operands s v hlegal, pushOn_of_lt v ((s.depth_lt_iff hlegal).2 hfull)]
    have hev : (s.push v).events = s.events := by rw [push_of_room v hfull]; rfl
    obtain ⟨ihsp, ihops, ihev⟩ :=
      ih (s := s.push v) (by omega) (by rw [hsp, push_cfg]; omega)
    change ((s.push v).pushAll l).sp = _ ∧ ((s.push v).pushAll l).operands = _ ∧
      ((s.push v).pushAll l).events = _
    refine ⟨?_, ?_, ihev.trans hev⟩
    · rw [ihsp, hsp, List.length_cons]
      omega
    · rw [ihops, hops, List.reverse_cons, List.append_assoc, List.singleton_append]

/-- Where the stack holds `n` words, `n` pops yield them, top first, and leave the rest. -/
theorem State.popMany_of_le (n : Nat) {s : State} (hn : (n : Int) ≤ s.sp + 1) :
    (s.popMany n).1 = s.operands.take n ∧ (s.popMany n).2.sp = s.sp - n ∧
      (s.popMany n).2.operands = s.operands.drop n ∧ (s.popMany n).2.events = s.events := by
  induction n generalizing s with
  | zero => simp [popMany]
  | succ n ih =>
    have hsome : s.sp ≠ -1 := by omega
    have hsp : s.pop.2.sp = s.sp - 1 := by rw [pop_sp, if_neg hsome]
    have hops : s.operands = s.pop.1 :: s.pop.2.operands := by
      rw [pop_of_some hsome]
      exact operands_of_some (by omega)
    have hev : s.pop.2.events = s.events := by rw [pop_of_some hsome]; rfl
    obtain ⟨ihwords, ihsp, ihops, ihev⟩ := ih (s := s.pop.2) (by omega)
    rw [hops]
    refine ⟨congrArg (s.pop.1 :: ·) ihwords, ihsp.trans (by omega), ihops, ihev.trans hev⟩

/-- Settles O22: the pushed words stand on the old operand stack reversed, and the pops take just
them. -/
theorem pushesThenPopsComeBackReversed : Obligations.PushesThenPopsComeBackReversed := by
  intro s l hlo hroom
  obtain ⟨hsp, hops, hev⟩ := pushAll_of_room l hlo hroom
  obtain ⟨hwords, hsp', hops', hev'⟩ :=
    popMany_of_le l.length (s := s.pushAll l) (by omega)
  rw [hops] at hwords hops'
  refine ⟨?_, by omega, ?_, hev'.trans hev⟩
  · rw [hwords, List.take_left' l.length_reverse]
  · rw [hops', List.drop_left' l.length_reverse]

end Sys2Proof.Machine
end

section
/-! PROOFS. The family 41_decode_dispatch.md. When the terminal condition holds, what a step runs and
that it always answers, how a run ends, that no body but IN's reads `wide` or the input source, and so
what WIDE leaves of the instruction it covers. -/

namespace Sys2Proof

/-- A byte that no opcode has is an unrecognized one (R60). -/
theorem OpcodeMap.find_eq_none {m : OpcodeMap} {b : Byte} (h : ∀ o, m.byteOf o ≠ b) :
    m.find b = none :=
  List.find?_eq_none.2 fun o _ => by simpa using h o

end Sys2Proof

namespace Sys2Proof.Machine

open State

/-! ### The terminal condition (R90) -/

theorem State.standsOn_iff {s : State} {o : Opcode} :
    s.standsOn o = true ↔ s.text[s.pc]? = some (s.cfg.opc.byteOf o) := beq_iff_eq

theorem State.terminal_iff {s : State} :
    s.terminal = true ↔ s.textSize ≤ s.pc ∨ s.standsOn .halt = true ∨ s.standsOn .err = true := by
  simp only [terminal, Bool.or_eq_true, decide_eq_true_eq, or_assoc]

/-- Settles O53: the terminal condition compares the byte at `pc` with those of HALT and ERR. -/
theorem terminalLooksAtTheByteAtPc : Obligations.TerminalLooksAtTheByteAtPc := by
  intro s
  rw [terminal_iff, standsOn_iff, standsOn_iff]
  rfl

/-- With distinct bytes (R59) `pc` stands on one opcode. -/
theorem State.standsOn_of_ne {s : State} (hd : s.cfg.opc.distinct) {o o' : Opcode}
    (h : s.standsOn o = true) (hne : o' ≠ o) : s.standsOn o' = false := by
  rw [← Bool.not_eq_true, standsOn_iff, standsOn_iff.1 h, Option.some.injEq]
  exact fun he => hne (OpcodeMap.byteOf_injective hd he).symm

/-! ### A step runs what is decoded at `pc` (R80, R81) -/

theorem step_of_decode {s : State} {i : Instr} {rest : List Byte} (hf : s.fault = none)
    (h : decode s.cfg.opc (s.text.drop s.pc) = .ok i rest) : step s = exec i s.beginStep := by
  simp only [step, stepRunning, fetch, hf, h]

/-- Settles O6: the encoding of a well-formed instruction is decoded as that instruction. -/
theorem stepRunsTheDecodedInstruction : Obligations.StepRunsTheDecodedInstruction :=
  fun _ _ rest hf => ⟨step_of_decode hf, fun hd hwf hb =>
    step_of_decode hf (hb ▸ decode_encode hd rest hwf)⟩

/-- A one-byte instruction is decoded where `pc` stands on its opcode. -/
theorem step_of_standsOn {s : State} (hf : s.fault = none) (hd : s.cfg.opc.distinct) {o : Opcode}
    {i : Instr} (ho : (o, i) ∈ operandless) (h : s.standsOn o = true) :
    step s = exec i s.beginStep := by
  obtain ⟨hlt, hget⟩ := List.getElem?_eq_some_iff.1 (standsOn_iff.1 h)
  refine step_of_decode (rest := s.text.drop (s.pc + 1)) hf ?_
  rw [List.drop_eq_getElem_cons hlt, hget]
  exact decode_operandless hd false _ o ho

/-! ### NOP, an unrecognized byte, WIDE WIDE (R83, R86, R104) -/

theorem State.setWide_of_eq {s : State} {b : Bool} (h : s.wide = b) : s.setWide b = s := by
  subst h
  rfl

/-- A body that does nothing but move `pc` on, alone or under WIDE. -/
theorem State.leave_advance_enter {s : State} (hw : s.wide = false) (w : Bool) (n : Nat) :
    ((s.enter w).advance n).leave w = { s with pc := ownOpcode s.pc w + n } := by
  cases w
  · rfl
  · exact setWide_of_eq (s := { s with pc := s.pc + 1 + n }) hw

/-- The two instructions whose body is nothing but the advance. -/
theorem exec_of_advance {i : Instr} (hi : i = .nop ∨ ∃ b, i = .unrecognized b) {s : State}
    (hw : s.wide = false) (w : Bool) :
    exec (i.aloneOrWide w) s = .next { s with pc := ownOpcode s.pc w + 1 } := by
  have hk : i.keepsFormat = true := by obtain rfl | ⟨b, rfl⟩ := hi <;> rfl
  have hb : coveredBody i (s.enter w) = .done ((s.enter w).advance 1) := by
    obtain rfl | ⟨b, rfl⟩ := hi <;> rfl
  rw [exec_of_done hk hb, leave_advance_enter hw]

/-- Settles O23: both bodies are the advance by one, and the two bytes are decoded as NOP or as an
unrecognized byte. -/
theorem nopAndUnrecognizedOnlyAdvance : Obligations.NopAndUnrecognizedOnlyAdvance := by
  intro s w b rest hw
  refine ⟨exec_of_advance (.inl rfl) hw w, exec_of_advance (.inr ⟨b, rfl⟩) hw w,
    fun hf hd hb htext => ?_⟩
  obtain ⟨i, hi, hdec⟩ : ∃ i : Instr, (i = .nop ∨ ∃ b, i = .unrecognized b) ∧
      decode s.cfg.opc (s.text.drop s.pc) = .ok (i.aloneOrWide w) rest := by
    rw [htext]
    obtain hb | rfl := hb
    · exact ⟨_, .inr ⟨b, rfl⟩, decode_unrecognized hd w rest (OpcodeMap.find_eq_none hb)⟩
    · exact ⟨_, .inl rfl, decode_operandless hd w rest .nop (by decide)⟩
  rw [step_of_decode hf hdec]
  exact exec_of_advance hi (s := s.beginStep) hw w

/-- Settles O45: WIDE WIDE has no other effect than the fault. -/
theorem nestedPrefixFaults : Obligations.NestedPrefixFaults :=
  fun s => ⟨_, exec_eq_wholeBody .wideWide s, raised_raiseFault s _ _⟩

/-! ### A step answers, but for IN (R161) -/

/-- The body has a next state: it runs to its end or raises a fault. It is not held, and the term is
an instruction. -/
inductive Result.Answers : Result → Prop
  | done (t : State) : (Result.done t).Answers
  | raised (c : FaultCause) (info : Int) : (Result.raised c info).Answers

theorem Result.Answers.finish {r : Result} (h : r.Answers) (s : State) :
    ∃ t, finish s r = .next t := by
  cases h with
  | done t => exact ⟨t, rfl⟩
  | raised c info => exact ⟨_, rfl⟩

theorem answers_branchIf (c : Bool) (off : Half) (s : State) : (branchIf c off s).Answers := by
  obtain ⟨-, h⟩ | ⟨-, h⟩ := branchIf_cases c off s <;> rw [h]
  · obtain ⟨-, h⟩ | ⟨-, -, h⟩ := takeBranch_cases off s <;> rw [h]
    · exact .raised _ _
    · exact .done _
  · exact .done _

theorem answers_withSlot {n : Nat} {s : State} {k : Nat → Result} (h : ∀ e, (k e).Answers) :
    (withSlot n s k).Answers := by
  obtain ⟨-, hs⟩ | ⟨-, hs⟩ := withSlot_cases n s k <;> rw [hs]
  · exact .raised _ _
  · exact h _

theorem LocalBody.answers {body : State → Result} (h : LocalBody body) (s : State) :
    (body s).Answers := by
  cases h <;> exact answers_withSlot fun _ => .done _

theorem answers_ldcWBody (x : Half) (s : State) : (ldcWBody x s).Answers := by
  unfold ldcWBody
  split
  · exact .done _
  · exact .raised _ _

theorem answers_coveredBody {i : Instr} (hk : i.keepsFormat = true) (hin : i ≠ .in_) (s : State) :
    (coveredBody i s).Answers := by
  cases i with
  | in_ => exact absurd rfl hin
  | ldcW x => exact answers_ldcWBody x s
  | ifeq off | iflt off | ifIcmpeq off => exact answers_branchIf _ off _
  | goto off => exact answers_branchIf true off s
  | iload _ | istore _ | iinc _ _ | wide _ | wideIload _ | wideIstore _ | wideIinc _ _ | wideWide =>
    cases hk
  | _ => exact .done _

theorem answers_underWide {body : State → Result} (hb : ∀ u, (body u).Answers) (s : State) :
    (underWide body s).Answers := by
  have h := hb ((s.setWide true).advance 1)
  unfold underWide
  generalize body ((s.setWide true).advance 1) = r at h
  cases h with
  | done t => exact .done _
  | raised c info => exact .raised c info

/-- Every term that some bytes stand for, but IN. -/
theorem answers_wholeBody {opc : OpcodeMap} {i : Instr} (hwf : i.wf opc = true) (hin : i ≠ .in_)
    (hwin : i ≠ .wide .in_) (s : State) : (wholeBody i s).Answers := by
  by_cases hk : i.keepsFormat = true
  · rw [wholeBody_of_keepsFormat hk]
    exact answers_coveredBody hk hin s
  cases i with
  | iload v => exact (LocalBody.load _ 2).answers s
  | istore v => exact (LocalBody.store _ 2).answers s
  | iinc v c => exact (LocalBody.inc _ c 3).answers s
  | wide c =>
    have hc : c ≠ .in_ := by rintro rfl; exact hwin rfl
    exact answers_underWide (answers_coveredBody (Instr.wf_of_wide hwf).1 hc) s
  | wideIload v => exact answers_underWide (LocalBody.load _ 3).answers s
  | wideIstore v => exact answers_underWide (LocalBody.store _ 3).answers s
  | wideIinc v c => exact answers_underWide (LocalBody.inc _ c 4).answers s
  | wideWide => exact .raised _ _
  | _ => exact absurd rfl hk

theorem inBody_answers_or_held (s : State) :
    (inBody s).Answers ∨ (inBody s = .held ∧ s.input = [] ∧ s.inputClosed = false) := by
  unfold inBody
  obtain ⟨c, r, -, h⟩ | ⟨-, -, h⟩ | ⟨hin, hopen, h⟩ := inRead_cases s <;> rw [h]
  · exact .inl (.done _)
  · exact .inl (.done _)
  · exact .inr ⟨rfl, hin, hopen⟩

/-- IN, alone or under WIDE, answers unless it waits for an open source. -/
theorem exec_in_next_or_held (w : Bool) (s : State) :
    (∃ t, exec (Instr.in_.aloneOrWide w) s = .next t) ∨
      (exec (Instr.in_.aloneOrWide w) s = .fault .heldForInput ∧ s.input = [] ∧
        s.inputClosed = false) := by
  rw [exec_aloneOrWide rfl, coveredBody]
  obtain h | ⟨h, hin, hopen⟩ := inBody_answers_or_held (s.enter w)
  · generalize inBody (s.enter w) = r at h
    cases h with
    | done t => exact .inl ⟨_, rfl⟩
    | raised c info => exact .inl ⟨_, rfl⟩
  · rw [h]
    exact .inr ⟨rfl, by simpa using hin, by simpa using hopen⟩

/-- Settles O9: what is decoded is well formed, every well-formed instruction but IN answers, and so
does a step whose bytes are not there. -/
theorem stepRunsOrWaitsForInput : Obligations.StepRunsOrWaitsForInput := by
  intro s hf
  cases hdec : decode s.cfg.opc (s.text.drop s.pc) with
  | truncated off => exact .inl ⟨_, step_of_truncated hf hdec⟩
  | ok i rest =>
    rw [step_of_decode hf hdec]
    by_cases hin : ∃ w, i = Instr.in_.aloneOrWide w
    · obtain ⟨w, rfl⟩ := hin
      obtain h | ⟨h, hnone, hopen⟩ := exec_in_next_or_held w s.beginStep
      · exact .inl h
      · exact .inr ⟨h, hnone, hopen, rest, by cases w <;> simp [Instr.aloneOrWide]⟩
    · obtain ⟨hwf, -⟩ := readsEncoding_decode _ i rest hdec
      rw [exec_eq_wholeBody]
      exact .inl ((answers_wholeBody hwf (fun h => hin ⟨false, h⟩) (fun h => hin ⟨true, h⟩)
        s.beginStep).finish s.beginStep)

/-! ### How a run ends (R92, R93) -/

/-- What holds of the state where a run ends or stands, by the way it does so. -/
def RunEnd.Justified : RunEnd → Prop
  | .halted t => t.fault = none ∧ t.terminal = true ∧ t.status = .halted
  | .faulted t => t.fault ≠ none ∧ t.status = .faulted
  | .held t => t.status = .running ∧ step t = .fault .heldForInput
  | .refused _ _ => True
  | .outOfFuel _ => True

theorem runStops_eq_none {s : State} :
    runStops s = none ↔ s.fault = none ∧ ¬ s.terminal = true := by
  unfold runStops
  cases s.fault <;> cases s.terminal <;> simp

theorem runStops_eq_halted {s : State} (hf : s.fault = none) (ht : s.terminal = true) :
    runStops s = some (.halted s) := by
  simp [runStops, hf, ht]

/-- The loop takes no step for one of two reasons. -/
theorem runStops_justified {s : State} {e : RunEnd} (h : runStops s = some e) : e.Justified := by
  cases hf : s.fault with
  | some f =>
    obtain rfl : .faulted s = e := by simpa [runStops, hf] using h
    exact ⟨by simp [hf], by simp [status, hf]⟩
  | none =>
    by_cases ht : s.terminal = true
    · obtain rfl : .halted s = e := by simpa [runStops_eq_halted hf ht] using h
      exact ⟨hf, ht, by simp [status, hf, ht]⟩
    · rw [runStops_eq_none.2 ⟨hf, ht⟩] at h
      cases h

theorem runLoop_justified (n : Nat) (s : State) : (runLoop n s).Justified := by
  cases hs : runStops s with
  | some e =>
    rw [runLoop_of_runStops hs]
    exact runStops_justified hs
  | none =>
    obtain ⟨hf, ht⟩ := runStops_eq_none.1 hs
    cases n with
    | zero => simp [runLoop, hs, RunEnd.Justified]
    | succ n =>
      cases hstep : step s with
      | next t => simpa [runLoop, hs, hstep] using runLoop_justified n t
      | fault r =>
        simp only [runLoop, hs, hstep]
        exact ⟨(status_eq_running_iff hf).2 ht, hstep⟩
      | refused r => simp [runLoop, hs, hstep, RunEnd.Justified]

/-- Settles O54: every end of a run is justified. -/
theorem runEndsInATerminalState : Obligations.RunEndsInATerminalState := by
  intro n s t
  have h := runLoop_justified n s
  exact ⟨fun he => by rwa [he] at h, fun he => by rwa [he] at h, fun he => by rwa [he] at h⟩

/-! ### A run stops at a HALT or ERR byte; a direct step executes it (R91, R94) -/

/-- Where `pc` stands on HALT or ERR a run of any length takes no step. -/
theorem runLoop_of_standsOn {s : State} (hf : s.fault = none)
    (h : s.standsOn .halt = true ∨ s.standsOn .err = true) (n : Nat) : runLoop n s = .halted s :=
  runLoop_of_runStops (runStops_eq_halted hf (terminal_iff.2 (.inr h))) n

/-- Settles O56: at either byte the terminal condition holds, and the byte is decoded as the
instruction that a direct step executes. -/
theorem runStopsAtAHaltByte : Obligations.RunStopsAtAHaltByte := by
  intro s n hf hd
  refine ⟨fun hb => ?_, fun hb => ?_⟩
  · have h : s.standsOn .halt = true := standsOn_iff.2 hb
    have herr : s.standsOn .err = false := standsOn_of_ne hd h (by decide)
    refine ⟨runLoop_of_standsOn hf (.inl h) n, by simp [haltCause, hf, h, herr], ?_⟩
    exact step_of_standsOn (i := .halt) hf hd (by decide) h
  · have h : s.standsOn .err = true := standsOn_iff.2 hb
    refine ⟨runLoop_of_standsOn hf (.inr h) n, by simp [haltCause, hf, h], _,
      step_of_standsOn (i := .err) hf hd (by decide) h, rfl, ?_⟩
    exact (report_reported s.beginStep .err .err).trans (by simp)

/-! ### GOTO 0 (R93, R120) -/

/-- A running state that every step leads back to is never left. -/
theorem runLoop_of_step_self {s : State} (hs : runStops s = none) (h : step s = .next s) (n : Nat) :
    runLoop n s = .outOfFuel s := by
  induction n with
  | zero => simp [runLoop, hs]
  | succ n ih => simpa [runLoop, hs, h] using ih

/-- A branch with offset 0 goes to its own opcode byte. -/
theorem takeBranch_zero {s : State} (h : s.pc < s.textSize) : takeBranch 0 s = .done s := by
  have ht : branchTarget s.pc 0 = s.pc := by simp [branchTarget]
  obtain ⟨hout, -⟩ | ⟨-, -, hb⟩ := takeBranch_cases 0 s
  · omega
  · rw [hb, ht]
    rfl

/-- The bytes of GOTO 0 stand at `pc`. -/
def State.AtGotoZero (s : State) : Prop :=
  s.fault = none ∧ s.cfg.opc.distinct ∧ s.pc < s.textSize ∧
    ∃ rest, s.text.drop s.pc = [s.cfg.opc.goto, 0, 0] ++ rest

theorem State.AtGotoZero.step {s : State} (h : s.AtGotoZero) : step s = .next s.beginStep := by
  obtain ⟨hf, hd, hpc, rest, htext⟩ := h
  have hdec : decode s.cfg.opc (s.text.drop s.pc) = .ok (.goto 0) rest := by
    rw [htext]
    exact decode_withHalf hd false rest .goto (f := .goto) (by simp [withHalf]) 0 0
  rw [step_of_decode hf hdec, exec_eq_wholeBody]
  exact congrArg (finish s.beginStep) (takeBranch_zero (s := s.beginStep) hpc)

/-- The byte of GOTO is not that of HALT or ERR. -/
theorem State.AtGotoZero.runStops {s : State} (h : s.AtGotoZero) : runStops s = none := by
  obtain ⟨hf, hd, hpc, rest, htext⟩ := h
  have hgoto : s.standsOn .goto = true := by
    rw [standsOn_iff, ← List.head?_drop, htext]
    rfl
  refine runStops_eq_none.2 ⟨hf, fun ht => ?_⟩
  rw [terminal_iff, standsOn_of_ne hd hgoto (by decide), standsOn_of_ne hd hgoto (by decide)] at ht
  simp at ht
  omega

/-- Settles O57: the first step empties the event list, and every further one leads back to the same
state. -/
theorem gotoZeroNeverEnds : Obligations.GotoZeroNeverEnds := by
  intro s n rest hf hd htext hpc
  have h : s.AtGotoZero := ⟨hf, hd, hpc, rest, htext⟩
  have hb : s.beginStep.AtGotoZero := h
  cases n with
  | zero => exact ⟨s, by simp [runLoop, h.runStops], rfl, hf, rfl, rfl, fun hn => absurd rfl hn⟩
  | succ n =>
    refine ⟨s.beginStep, ?_, rfl, hf, rfl, rfl, fun _ => rfl⟩
    simpa [runLoop, h.runStops, h.step] using runLoop_of_step_self hb.runStops hb.step n

/-! ### No body but IN's reads `wide` or the input source (R15, R95, R160) -/

/-- `f` changes nothing but `wide` and the input source, and each by itself. -/
def OnUnread (f : State → State) : Prop :=
  ∃ (fw : Bool → Bool) (fi : List Byte → List Byte) (fc : Bool → Bool), f = fun s =>
    { s with wide := fw s.wide, input := fi s.input, inputClosed := fc s.inputClosed }

theorem onUnread_setWide (b : Bool) : OnUnread (setWide b) := ⟨fun _ => b, id, id, rfl⟩

/-- The state with another input source. -/
def State.withSource (l : List Byte) (closed : Bool) (s : State) : State :=
  { s with input := l, inputClosed := closed }

theorem onUnread_withSource (l : List Byte) (closed : Bool) : OnUnread (withSource l closed) :=
  ⟨id, fun _ => l, fun _ => closed, rfl⟩

/-- The end of a body with `f` applied to the state it leaves. -/
def Result.map (f : State → State) : Result → Result
  | .done t => .done (f t)
  | .raised c info => .raised c info
  | .held => .held
  | .illFormed => .illFormed

section

variable {f : State → State}

namespace OnUnread

/-! What `f` leaves, and that each move commutes with it. -/

theorem cfg (h : OnUnread f) (s : State) : (f s).cfg = s.cfg := by obtain ⟨_, _, _, rfl⟩ := h; rfl
theorem cp (h : OnUnread f) (s : State) : (f s).cp = s.cp := by obtain ⟨_, _, _, rfl⟩ := h; rfl
theorem pc (h : OnUnread f) (s : State) : (f s).pc = s.pc := by obtain ⟨_, _, _, rfl⟩ := h; rfl
theorem sp (h : OnUnread f) (s : State) : (f s).sp = s.sp := by obtain ⟨_, _, _, rfl⟩ := h; rfl
theorem textSize (h : OnUnread f) (s : State) : (f s).textSize = s.textSize := by
  obtain ⟨_, _, _, rfl⟩ := h; rfl
theorem entry (h : OnUnread f) (s : State) (k : Nat) : (f s).entry k = s.entry k := by
  obtain ⟨_, _, _, rfl⟩ := h; rfl
theorem localSlot (h : OnUnread f) (s : State) (n : Nat) : localSlot (f s) n = localSlot s n := by
  obtain ⟨_, _, _, rfl⟩ := h; rfl

theorem report (h : OnUnread f) (s : State) (d : Diagnostic) :
    (f s).report d = f (s.report d) := by obtain ⟨_, _, _, rfl⟩ := h; rfl
theorem advance (h : OnUnread f) (s : State) (n : Nat) : (f s).advance n = f (s.advance n) := by
  obtain ⟨_, _, _, rfl⟩ := h; rfl
theorem setPc (h : OnUnread f) (s : State) (n : Nat) : (f s).setPc n = f (s.setPc n) := by
  obtain ⟨_, _, _, rfl⟩ := h; rfl
theorem setSp (h : OnUnread f) (s : State) (v : Int) : (f s).setSp v = f (s.setSp v) := by
  obtain ⟨_, _, _, rfl⟩ := h; rfl
theorem setEntry (h : OnUnread f) (s : State) (i : Nat) (v : Word) :
    (f s).setEntry i v = f (s.setEntry i v) := by obtain ⟨_, _, _, rfl⟩ := h; rfl
theorem outWrite (h : OnUnread f) (s : State) (b : Byte) :
    (f s).outWrite b = f (s.outWrite b) := by obtain ⟨_, _, _, rfl⟩ := h; rfl
theorem raiseFault (h : OnUnread f) (s : State) (c : FaultCause) (info : Int) :
    (f s).raiseFault c info = f (s.raiseFault c info) := by obtain ⟨_, _, _, rfl⟩ := h; rfl

theorem push (h : OnUnread f) (s : State) (v : Word) : (f s).push v = f (s.push v) := by
  unfold State.push
  rw [h.sp, h.cfg]
  split
  · exact h.report s .ovf
  · rw [h.setSp, h.setEntry]

theorem pop (h : OnUnread f) (s : State) : (f s).pop = (s.pop.1, f s.pop.2) := by
  unfold State.pop
  rw [h.sp, h.entry]
  split
  · rw [h.report]
  · rw [h.setSp]

theorem peek (h : OnUnread f) (s : State) : (f s).peek = (s.peek.1, f s.peek.2) := by
  unfold State.peek
  rw [h.sp, h.entry]
  split
  · rw [h.report]
  · rfl

end OnUnread

variable (hu : OnUnread f)

include hu

theorem takeBranch_map (off : Half) (s : State) :
    takeBranch off (f s) = (takeBranch off s).map f := by
  simp only [takeBranch, hu.pc, hu.textSize]
  split
  · rfl
  · exact congrArg Result.done (hu.setPc s _)

theorem branchIf_map (c : Bool) (off : Half) (s : State) :
    branchIf c off (f s) = (branchIf c off s).map f := by
  cases c
  · exact congrArg Result.done (hu.advance s 3)
  · exact takeBranch_map hu off s

theorem withSlot_map (n : Nat) (s : State) {k k' : Nat → Result} (hk : ∀ e, k' e = (k e).map f) :
    withSlot n (f s) k' = (withSlot n s k).map f := by
  simp only [withSlot, hu.cfg, hu.localSlot]
  split
  · rfl
  · exact hk _

theorem binaryOp_map (g : Word → Word → Word) (s : State) :
    binaryOp g (f s) = (binaryOp g s).map f := by
  simp only [binaryOp, hu.pop, hu.push, hu.advance, Result.map]

theorem ldcWBody_map (x : Half) (s : State) : ldcWBody x (f s) = (ldcWBody x s).map f := by
  simp only [ldcWBody, hu.cp, hu.push, hu.advance]
  split <;> rfl

theorem LocalBody.map {body : State → Result} (h : LocalBody body) (s : State) :
    body (f s) = (body s).map f := by
  cases h with
  | load n len =>
    refine withSlot_map hu n s fun e => ?_
    simp only [hu.entry, hu.push, hu.advance, Result.map]
  | store n len =>
    refine withSlot_map hu n s fun e => ?_
    simp only [hu.pop, hu.setEntry, hu.advance, Result.map]
  | inc n c len =>
    refine withSlot_map hu n s fun e => ?_
    simp only [hu.entry, hu.setEntry, hu.advance, Result.map]

/-- Every covered body but IN's. -/
theorem coveredBody_map {i : Instr} (hin : i ≠ .in_) (s : State) :
    coveredBody i (f s) = (coveredBody i s).map f := by
  cases i with
  | in_ => exact absurd rfl hin
  | nop | unrecognized => exact congrArg Result.done (hu.advance s 1)
  | bipush b => simp only [coveredBody, bipushBody, hu.push, hu.advance, Result.map]
  | ldcW x => exact ldcWBody_map hu x s
  | pop => simp only [coveredBody, popBody, hu.pop, hu.advance, Result.map]
  | dup => simp only [coveredBody, dupBody, hu.peek, hu.push, hu.advance, Result.map]
  | swap => simp only [coveredBody, swapBody, hu.pop, hu.push, hu.advance, Result.map]
  | iadd | isub | iand | ior => exact binaryOp_map hu _ s
  | ifeq off => simp only [coveredBody, ifeqBody, hu.pop, branchIf_map hu]
  | iflt off => simp only [coveredBody, ifltBody, hu.pop, branchIf_map hu]
  | ifIcmpeq off => simp only [coveredBody, ifIcmpeqBody, hu.pop, branchIf_map hu]
  | goto off => exact takeBranch_map hu off s
  | out => simp only [coveredBody, outBody, hu.pop, hu.outWrite, hu.advance, Result.map]
  | err => simp only [coveredBody, errBody, hu.textSize, hu.report, hu.setPc, Result.map]
  | halt => simp only [coveredBody, haltBody, hu.textSize, hu.setPc, Result.map]
  | _ => rfl

/-- An instruction whose body comes to the same end but for `f` has the same next state but for
`f`. -/
theorem finish_map {s t : State} {r : Result}
    (h : finish s r = .next t) : finish (f s) (r.map f) = .next (f t) := by
  obtain rfl | ⟨c, info, rfl, rfl⟩ := finish_next h
  · rfl
  · exact congrArg Host.Outcome.next (hu.raiseFault s c info)

end

/-! ### Only IN reads the input source (R95, R160) -/

section

variable (l : List Byte) (closed : Bool)

theorem underWide_withSource {body : State → Result}
    (hb : ∀ u, body (u.withSource l closed) = (body u).map (withSource l closed)) (s : State) :
    underWide body (s.withSource l closed) = (underWide body s).map (withSource l closed) := by
  have h : body (((s.withSource l closed).setWide true).advance 1) = _ :=
    hb ((s.setWide true).advance 1)
  unfold underWide
  rw [h]
  cases body ((s.setWide true).advance 1) <;> rfl

theorem wholeBody_withSource {i : Instr} (hin : i ≠ .in_) (hwin : i ≠ .wide .in_) (s : State) :
    wholeBody i (s.withSource l closed) = (wholeBody i s).map (withSource l closed) := by
  have hu := onUnread_withSource l closed
  by_cases hk : i.keepsFormat = true
  · rw [wholeBody_of_keepsFormat hk, wholeBody_of_keepsFormat hk]
    exact coveredBody_map hu hin s
  cases i with
  | iload v => exact (LocalBody.load _ 2).map hu s
  | istore v => exact (LocalBody.store _ 2).map hu s
  | iinc v c => exact (LocalBody.inc _ c 3).map hu s
  | wide c =>
    have hc : c ≠ .in_ := by rintro rfl; exact hwin rfl
    exact underWide_withSource l closed (coveredBody_map hu hc) s
  | wideIload v => exact underWide_withSource l closed ((LocalBody.load _ 3).map hu) s
  | wideIstore v => exact underWide_withSource l closed ((LocalBody.store _ 3).map hu) s
  | wideIinc v c => exact underWide_withSource l closed ((LocalBody.inc _ c 4).map hu) s
  | wideWide => rfl
  | _ => exact absurd rfl hk

end

/-- WIDE covers no second WIDE, so that IN alone has the shape of IN's stores. -/
theorem eq_in_of_storeShape {i : Instr} {s t : State} (h : exec i s = .next t)
    (hi : i.storeShape = .input) : i = .in_ ∨ i = .wide .in_ := by
  cases i with
  | in_ => exact .inl rfl
  | wide c =>
    cases c with
    | in_ => exact .inr rfl
    | wide _ => cases h
    | _ => cases hi
  | _ => cases hi

/-- Settles O17: with another source the body comes to the same end, and what it leaves of the source
is what it began with. -/
theorem onlyInReadsTheInput : Obligations.OnlyInReadsTheInput := by
  intro s t i l closed hin hwin h
  have hshape : i.storeShape ≠ .input := fun hi => (eq_in_of_storeShape h hi).elim hin hwin
  refine ⟨?_, ?_⟩
  · rw [exec_eq_wholeBody] at h
    change exec i (s.withSource l closed) = .next (t.withSource l closed)
    rw [exec_eq_wholeBody, wholeBody_withSource l closed hin hwin]
    exact finish_map (onUnread_withSource l closed) h
  · obtain ⟨c, info, rfl⟩ | ⟨hb, ⟨-, -, -, -, hclosed⟩, -⟩ := exec_next h
    · exact ⟨rfl, rfl⟩
    · exact ⟨wholeBody_input hshape hb, hclosed⟩

/-! ### What WIDE leaves of the instruction it covers (R84, R85) -/

/-- IN reads the input source but not `wide`. -/
theorem inBody_setWide (b : Bool) (s : State) :
    inBody (s.setWide b) = (inBody s).map (setWide b) := by
  have hu := onUnread_setWide b
  unfold inBody inRead
  rw [setWide_input, setWide_inputClosed]
  cases s.input with
  | cons c r =>
    have hcomm : (s.setWide b).setInput r = (s.setInput r).setWide b := rfl
    simp only [hcomm, hu.push, hu.advance, Result.map]
  | nil =>
    cases s.inputClosed with
    | false => rfl
    | true => simp only [↓reduceIte, setWide_cfg, hu.push, hu.advance, Result.map]

theorem coveredBody_setWide (b : Bool) (i : Instr) (s : State) :
    coveredBody i (s.setWide b) = (coveredBody i s).map (setWide b) := by
  by_cases hin : i = .in_
  · subst hin
    exact inBody_setWide b s
  · exact coveredBody_map (onUnread_setWide b) hin s

/-- From a state with `wide` 0, WIDE runs the covered body one byte later and nothing else. -/
theorem underWide_coveredBody {s : State} (hw : s.wide = false) (c : Instr) :
    underWide (coveredBody c) s = coveredBody c (s.advance 1) := by
  have h : coveredBody c ((s.setWide true).advance 1) = _ :=
    coveredBody_setWide true c (s.advance 1)
  unfold underWide
  rw [h]
  cases hb : coveredBody c (s.advance 1) with
  | done t =>
    obtain ⟨⟨-, -, hwide, -⟩, -⟩ := coveredBody_sound c _ t hb
    have ht : t.wide = false := by
      obtain hwide | hwide := hwide
      · rw [hwide, advance_wide, hw]
      · exact hwide
    exact congrArg Result.done (setWide_of_eq ht)
  | raised c info => rfl
  | held => rfl
  | illFormed => rfl

/-- The model stops at an instruction only where its body is held. -/
theorem held_of_finish_fault {s : State} {r : Result} {e : Fault} (h : finish s r = .fault e) :
    r = .held := by
  cases r with
  | held => rfl
  | done _ | raised _ _ | illFormed => cases h

/-- A body that runs to its end raises no fault. -/
theorem coveredBody_fault {c : Instr} {s t : State} (h : coveredBody c s = .done t) :
    t.fault = s.fault := by
  obtain ⟨⟨-, -, -, hf, -⟩, -⟩ := coveredBody_sound c s t h
  exact hf

/-- Settles O46: both run the covered body at `pc + 1`; a fault it raises is recorded with the `pc`
of the start of the instruction, which is the WIDE byte's under WIDE. -/
theorem wideKeepsTheCoveredInstruction : Obligations.WideKeepsTheCoveredInstruction := by
  intro s c hk hw hf
  have hwide : exec (.wide c) s = finish s (coveredBody c (s.advance 1)) := by
    rw [← underWide_coveredBody hw]
    exact exec_eq_wholeBody (.wide c) s
  have halone : exec c { s with pc := s.pc + 1 } = _ := exec_eq_finish hk (s.advance 1)
  rw [hwide, halone]
  refine ⟨fun t h ht => ?_, fun t f h ht => ?_, fun r h => ?_⟩
  · obtain hb | ⟨cause, info, -, rfl⟩ := finish_next h
    · rw [hb, finish_done]
    · cases ht
  · obtain hb | ⟨cause, info, hb, rfl⟩ := finish_next h
    · rw [coveredBody_fault hb, advance_fault, hf] at ht
      cases ht
    · cases ht
      rw [hb]
      exact ⟨_, rfl, raised_raiseFault s cause info⟩
  · have hb := held_of_finish_fault h
    rw [hb] at h ⊢
    exact h

end Sys2Proof.Machine
end

section
/-! PROOFS. The family 42_stack_ops.md. How the operand stack, the reports and `pc` go on along a
body of pushes, pops and peeks, and from these BIPUSH, DUP, POP and SWAP, alone and under WIDE. -/

namespace Sys2Proof.Machine

open State

/-! ### The operand stack along a body -/

section

variable {s t : State} {p : Nat} {ops : List Word} {ds : List Diagnostic}

theorem State.Finishes.pc_eq (h : s.Finishes t p ds) : t.pc = p := h.1

theorem State.Finishes.cfg_eq (h : s.Finishes t p ds) : t.cfg = s.cfg := by
  obtain ⟨-, -, ⟨hcfg, -⟩, -⟩ := h
  exact hcfg

theorem State.Ends.refl (s : State) : s.Ends s s.pc s.operands [] := ⟨rfl, Finishes.refl s⟩

theorem State.Ends.advance (h : s.Ends t p ops ds) (n : Nat) :
    s.Ends (t.advance n) (p + n) ops ds := by
  obtain ⟨hops, hfin⟩ := h
  exact ⟨hops, hfin.advance n⟩

/-- A push after what the body has done so far (R70). -/
theorem State.Ends.push (h : s.Ends t p ops ds) (ht : -1 ≤ t.sp ∧ t.sp ≤ t.cfg.stackCap - 1)
    (v : Word) :
    s.Ends (t.push v) p (pushOn s.cfg.stackCap v ops)
      (ds ++ pushReports s.cfg.stackCap ops.length) := by
  obtain ⟨rfl, hfin⟩ := h
  rw [← hfin.cfg_eq, ← hfin.pc_eq]
  exact ⟨push_operands t v ht, hfin.trans (finishes_push t v ht)⟩

theorem State.ends_pop (h : -1 ≤ s.sp) :
    s.Ends s.pop.2 s.pc (s.operands.drop 1) (popReports 1 s.depth) :=
  ⟨pop_operands s h, finishes_pop s h⟩

theorem State.operands_eq_nil_iff (h : -1 ≤ s.sp) : s.operands = [] ↔ s.sp = -1 := by
  rw [← List.length_eq_zero_iff, operands_length]
  omega

theorem State.ends_peek (h : -1 ≤ s.sp) :
    s.Ends s.peek.2 s.pc s.operands (if s.operands = [] then [.emp] else []) := by
  refine ⟨s.peek_operands, ?_⟩
  simp only [operands_eq_nil_iff h]
  exact finishes_peek s

/-- `push(peek())` (R101). -/
theorem State.ends_push_peek (h : -1 ≤ s.sp ∧ s.sp ≤ s.cfg.stackCap - 1) :
    s.Ends (s.peek.2.push s.peek.1) s.pc (pushOn s.cfg.stackCap (s.operand 0) s.operands)
      ((if s.operands = [] then [.emp] else []) ++ pushReports s.cfg.stackCap s.depth) := by
  rw [peek_fst s h.1]
  exact (ends_peek h.1).push (by rwa [peek_sp, peek_cfg]) _

end

/-! ### Two words pushed where two were popped (R103) -/

section

variable {cap : Nat} {l : List Word} (hl : l.length ≤ cap) (hcap : 1 ≤ cap)

include hl hcap

theorem pushOn_drop_two (v : Word) : pushOn cap v (l.drop 2) = v :: l.drop 2 :=
  pushOn_of_lt v (by rw [List.length_drop]; omega)

theorem pushReports_drop_two : pushReports cap (l.drop 2).length = [] :=
  pushReports_of_lt (by rw [List.length_drop]; omega)

/-- There is no room for the second word only where the storage has one entry. -/
theorem pushOn_cons_drop_two (v w : Word) :
    pushOn cap w (v :: l.drop 2) = if cap = 1 then [v] else w :: v :: l.drop 2 := by
  split
  · have hnil : l.drop 2 = [] := List.drop_eq_nil_of_le (by omega)
    rw [hnil]
    exact pushOn_of_ge w (by rw [List.length_singleton]; omega)
  · exact pushOn_of_lt w (by rw [List.length_cons, List.length_drop]; omega)

theorem pushReports_cons_drop_two (v : Word) :
    pushReports cap (v :: l.drop 2).length = if cap = 1 then [.ovf] else [] := by
  rw [List.length_cons, List.length_drop]
  split
  · exact pushReports_of_ge (by omega)
  · exact pushReports_of_lt (by omega)

end

/-- Pop, pop, push, push (R103). -/
theorem State.ends_swap {s : State} (h : -1 ≤ s.sp ∧ s.sp ≤ s.cfg.stackCap - 1)
    (hcap : 1 ≤ s.cfg.stackCap) :
    s.Ends ((s.pop.2.pop.2.push s.pop.1).push s.pop.2.pop.1) s.pc
      (if s.cfg.stackCap = 1 then [s.operand 0]
        else s.operand 1 :: s.operand 0 :: s.operands.drop 2)
      (popReports 2 s.depth ++ if s.cfg.stackCap = 1 then [.ovf] else []) := by
  obtain ⟨hfst, hsnd, hops, hfin, hlegal, -⟩ := two_pops s h
  have hlen : s.operands.length ≤ s.cfg.stackCap := by rw [operands_length]; omega
  have hpops : s.Ends s.pop.2.pop.2 s.pc (s.operands.drop 2) (popReports 2 s.depth) := ⟨hops, hfin⟩
  have hpush := hpops.push hlegal (s.operand 0)
  rw [pushOn_drop_two hlen hcap, pushReports_drop_two hlen hcap, List.append_nil] at hpush
  have hpush' := hpush.push (push_legal _ _ hlegal) (s.operand 1)
  rw [pushOn_cons_drop_two hlen hcap, pushReports_cons_drop_two hlen hcap] at hpush'
  rwa [hfst, hsnd]

/-! ### The instructions -/

/-- An instruction whose body ends so, alone and under WIDE. Only IN and OUT touch the byte
channels. -/
theorem exec_ends_of_body {i : Instr} (hk : i.keepsFormat = true) (hin : i ≠ .in_) (hout : i ≠ .out)
    {w : Bool} {s t : State} {p : Nat} {ops : List Word} {ds : List Diagnostic}
    (hw : s.wide = false) (hb : coveredBody i (s.enter w) = .done t)
    (he : (s.enter w).Ends t p ops ds) :
    ∃ t, exec (i.aloneOrWide w) s = .next t ∧ s.Ends t p ops ds ∧ s.SameChannels t :=
  ⟨t.leave w, exec_of_done hk hb, he.of_body hw,
    (channelSafe_coveredBody hin hout _ t hb).of_body⟩

/-- WIDE leaves `sp` and the parameters, and so a legal `sp` (R12). -/
theorem State.enter_legal {s : State} (h : -1 ≤ s.sp ∧ s.sp ≤ s.cfg.stackCap - 1) (w : Bool) :
    -1 ≤ (s.enter w).sp ∧ (s.enter w).sp ≤ (s.enter w).cfg.stackCap - 1 := by
  rwa [enter_sp, enter_cfg]

/-- Settles O27: two pops leave room for one push, and for a second one unless `STACK_CAP` is 1. -/
theorem swapExchangesTheTopTwo : Obligations.SwapExchangesTheTopTwo := by
  rintro s w ⟨hlo, hhi, hcap, hw⟩
  refine exec_ends_of_body (i := .swap) rfl nofun nofun hw rfl ?_
  have h := (ends_swap (enter_legal ⟨hlo, hhi⟩ w) (by rwa [enter_cfg])).advance 1
  simpa only [enter_pc, enter_cfg, enter_operand, enter_operands, enter_depth] using h

/-- Settles O24: one push of the immediate, whose sign extension is the word of its signed value. -/
theorem bipushPushesTheSignExtendedByte : Obligations.BipushPushesTheSignExtendedByte := by
  rintro s w imm8 ⟨hlo, hhi, -, hw⟩
  refine exec_ends_of_body (i := .bipush imm8) rfl nofun nofun hw rfl ?_
  have h := ((Ends.refl (s.enter w)).push (enter_legal ⟨hlo, hhi⟩ w) (sext8 imm8)).advance 2
  have hext : sext8 imm8 = BitVec.ofInt 32 imm8.toInt := rfl
  simpa only [enter_pc, enter_cfg, enter_operands, hext, depth, List.nil_append] using h

/-- Settles O25: a peek and a push of the word it yields. -/
theorem dupPushesTheTop : Obligations.DupPushesTheTop := by
  rintro s w ⟨hlo, hhi, -, hw⟩
  refine exec_ends_of_body (i := .dup) rfl nofun nofun hw rfl ?_
  have h := (ends_push_peek (enter_legal ⟨hlo, hhi⟩ w)).advance 1
  simpa only [enter_pc, enter_cfg, enter_operand, enter_operands, enter_depth] using h

/-- Settles O26: one pop, and POP has the shape of the instructions that store nothing. -/
theorem popDiscardsTheTop : Obligations.PopDiscardsTheTop := by
  rintro s w ⟨hlo, hhi, -, hw⟩
  have h := (ends_pop (enter_legal ⟨hlo, hhi⟩ w).1).advance 1
  simp only [enter_pc, enter_operands, enter_depth] at h
  obtain ⟨t, hexec, hends, hchan⟩ :=
    exec_ends_of_body (i := .pop) rfl nofun nofun hw rfl h
  have hshape : (Instr.pop.aloneOrWide w).storeShape = .nothing := by cases w <;> rfl
  exact ⟨t, hexec, hends, hchan, storelessInstructionsKeepEveryEntry s t _ hshape hexec⟩

end Sys2Proof.Machine
end

section
/-! PROOFS. The family 43_arith_logic.md. What `binaryOp` leaves, the words of IADD and ISUB in
signed integers, and from these IADD, IAND, IOR and ISUB, alone and under WIDE. -/

namespace Sys2Proof.Machine

open State

/-! ### The words of IADD and ISUB (R110, R111) -/

theorem ofInt_toInt_add_toInt (a b : Word) : BitVec.ofInt 32 (a.toInt + b.toInt) = a + b := by
  rw [BitVec.ofInt_add, BitVec.ofInt_toInt, BitVec.ofInt_toInt]

theorem toInt_lowByte (v : Word) : (lowByte v).toInt = v.toInt.bmod 256 := by
  rw [lowByte, BitVec.toInt_setWidth, BitVec.toInt_eq_toNat_bmod]
  exact (Int.bmod_bmod_of_dvd (by decide)).symm

theorem toInt_lowByte_of_small {v : Word} (hlo : -128 ≤ v.toInt) (hhi : v.toInt ≤ 127) :
    (lowByte v).toInt = v.toInt := by
  rw [toInt_lowByte]
  exact Int.bmod_eq_of_le hlo (by omega)

/-- A difference of two signed bytes fits nine bits. -/
theorem byte_difference_bounds (a b : Byte) :
    -255 ≤ a.toInt - b.toInt ∧ a.toInt - b.toInt ≤ 255 := by
  have ha := And.intro a.le_toInt a.toInt_lt
  have hb := And.intro b.le_toInt b.toInt_lt
  omega

/-- The difference stands in the word as it is: it fits, so nothing wraps (D18). -/
theorem toInt_narrowSub (a b : Word) :
    (narrowSub a b).toInt = (lowByte a).toInt - (lowByte b).toInt := by
  obtain ⟨hlo, hhi⟩ := byte_difference_bounds (lowByte a) (lowByte b)
  exact BitVec.toInt_ofInt_eq_self (by decide) (by omega) (by omega)

/-- Settles O30: a small operand is the value of its own low byte, and both differences are the one
in integers; 300 and 257 are evaluated. -/
theorem narrowSubtractAgreesOnSmallOperands : Obligations.NarrowSubtractAgreesOnSmallOperands := by
  refine ⟨fun a b halo hahi hblo hbhi => ?_, by decide⟩
  rw [narrowSub, toInt_lowByte_of_small halo hahi, toInt_lowByte_of_small hblo hbhi]
  apply BitVec.eq_of_toInt_eq
  rw [BitVec.toInt_sub, BitVec.toInt_ofInt]

/-! ### Two words popped and one pushed -/

/-- The two pops leave room, so the push adds no report. -/
theorem State.ends_binaryOp {s : State} (h : -1 ≤ s.sp ∧ s.sp ≤ s.cfg.stackCap - 1)
    (hcap : 1 ≤ s.cfg.stackCap) (f : Word → Word → Word) :
    ∃ t, binaryOp f s = .done t ∧
      s.Ends t (s.pc + 1) (f (s.operand 1) (s.operand 0) :: s.operands.drop 2)
        (popReports 2 s.depth) := by
  obtain ⟨hfst, hsnd, hops, hfin, hlegal, -⟩ := two_pops s h
  have hlen : s.operands.length ≤ s.cfg.stackCap := by rw [operands_length]; omega
  have hpops : s.Ends s.pop.2.pop.2 s.pc (s.operands.drop 2) (popReports 2 s.depth) := ⟨hops, hfin⟩
  have hpush := hpops.push hlegal (f (s.operand 1) (s.operand 0))
  rw [pushOn_drop_two hlen hcap, pushReports_drop_two hlen hcap, List.append_nil] at hpush
  rw [binaryOp, hfst, hsnd]
  exact ⟨_, rfl, hpush.advance 1⟩

/-- An instruction whose body is `binaryOp f`, alone and under WIDE. -/
theorem exec_ends_of_binaryOp {i : Instr} (hk : i.keepsFormat = true) (hin : i ≠ .in_)
    (hout : i ≠ .out) {f : Word → Word → Word} (hb : coveredBody i = binaryOp f) {s : State}
    (hs : s.AtBoundary) (w : Bool) :
    ∃ t, exec (i.aloneOrWide w) s = .next t ∧
      s.Ends t (ownOpcode s.pc w + 1) (f (s.operand 1) (s.operand 0) :: s.operands.drop 2)
        (popReports 2 s.depth) ∧ s.SameChannels t := by
  obtain ⟨hlo, hhi, hcap, hw⟩ := hs
  obtain ⟨t, ht, hends⟩ := ends_binaryOp (enter_legal ⟨hlo, hhi⟩ w) (by rwa [enter_cfg]) f
  simp only [enter_pc, enter_operand, enter_operands, enter_depth] at hends
  exact exec_ends_of_body hk hin hout hw (by rw [hb, ht]) hends

theorem State.Ends.operand_zero {s t : State} {p : Nat} {v : Word} {ops : List Word}
    {ds : List Diagnostic} (h : s.Ends t p (v :: ops) ds) : t.operand 0 = v := by
  obtain ⟨hops, -⟩ := h
  rw [operand, hops, List.getD_cons_zero]

/-! ### The instructions -/

/-- Settles O28: each body is `binaryOp` of its operation, and the sum in integers taken as a word is
the sum of the words. -/
theorem addAndOrCombineTheTopTwo : Obligations.AddAndOrCombineTheTopTwo := by
  intro s w hs a b
  refine ⟨?_, ?_, ?_⟩
  · rw [ofInt_toInt_add_toInt]
    exact exec_ends_of_binaryOp (i := .iadd) rfl nofun nofun rfl hs w
  · exact exec_ends_of_binaryOp (i := .iand) rfl nofun nofun rfl hs w
  · exact exec_ends_of_binaryOp (i := .ior) rfl nofun nofun rfl hs w

/-- Settles O29: the top word after ISUB is the `narrowSub` of the two popped. -/
theorem isubSubtractsTheLowBytes : Obligations.IsubSubtractsTheLowBytes := by
  intro s w hs a8 b8
  obtain ⟨t, hexec, hends, hchan⟩ :=
    exec_ends_of_binaryOp (i := .isub) rfl nofun nofun rfl hs w
  have htop := hends.operand_zero
  obtain ⟨hlo, hhi⟩ := byte_difference_bounds (lowByte (s.operand 1)) (lowByte (s.operand 0))
  refine ⟨t, hexec, by rwa [htop], ?_, hlo, hhi, hchan⟩
  rw [htop]
  exact toInt_narrowSub _ _

end Sys2Proof.Machine
end

section
/-! PROOFS. The family 44_control.md. The four branches as one rule, what they pop and when they are
taken, and from it the branches taken inside the stream, taken outside it, and not taken; then HALT
and ERR. All alone and under WIDE. -/

namespace Sys2Proof.Machine

open State

/-! ### `pc` and `TEXT_SIZE` along a body -/

section

variable {s t : State} {p : Nat} {ops : List Word} {ds : List Diagnostic}

theorem State.Finishes.textSize_eq (h : s.Finishes t p ds) : t.textSize = s.textSize := by
  obtain ⟨-, -, himg, -⟩ := h
  exact himg.textSize_eq

theorem State.Ends.finishes (h : s.Ends t p ops ds) : s.Finishes t p ds := h.2

theorem State.Ends.setPc (h : s.Ends t p ops ds) (q : Nat) : s.Ends (t.setPc q) q ops ds := by
  obtain ⟨hops, hfin⟩ := h
  exact ⟨hops, hfin.setPc q⟩

end

/-- Alone or under WIDE, a body that does nothing but write `pc`. -/
theorem State.leave_setPc_enter {s : State} (hw : s.wide = false) (w : Bool) (n : Nat) :
    ((s.enter w).setPc n).leave w = { s with pc := n } := by
  cases w
  · rfl
  · exact setWide_of_eq (s := { s with pc := n }) hw

/-! ### The branch rule, by its target (R124) -/

theorem takeBranch_of_inside {off : Half} {s : State} (hlo : 0 ≤ branchTarget s.pc off)
    (hhi : branchTarget s.pc off < s.textSize) :
    takeBranch off s = .done (s.setPc (branchTarget s.pc off).toNat) := by
  obtain ⟨hout, -⟩ | ⟨-, -, h⟩ := takeBranch_cases off s
  · omega
  · exact h

theorem takeBranch_of_outside {off : Half} {s : State}
    (hout : branchTarget s.pc off < 0 ∨ s.textSize ≤ branchTarget s.pc off) :
    takeBranch off s = .raised .branchTargetOutOfRange (branchTarget s.pc off) := by
  obtain ⟨-, h⟩ | ⟨hlo, hhi, -⟩ := takeBranch_cases off s
  · exact h
  · omega

/-! ### The four branches (R120 to R123) -/

theorem popReports_zero (n : Nat) : popReports 0 n = [] := by
  rw [popReports, Nat.zero_sub, List.replicate_zero]

/-- The branches with offset `off`: how many words each pops, and the condition on the first and the
second popped word under which it is taken. `Branch.body` ties the table to the bodies. -/
inductive Branch (off : Half) : Instr → Nat → (Word → Word → Prop) → Prop
  | goto : Branch off (.goto off) 0 fun _ _ => True
  | ifeq : Branch off (.ifeq off) 1 fun a _ => a = 0
  | iflt : Branch off (.iflt off) 1 fun a _ => a.toInt < 0
  | ifIcmpeq : Branch off (.ifIcmpeq off) 2 fun b a => a = b

namespace Branch

variable {off : Half} {i : Instr} {k : Nat} {c : Word → Word → Prop}

theorem keepsFormat (h : Branch off i k c) : i.keepsFormat = true := by cases h <;> rfl

theorem ne_in (h : Branch off i k c) : i ≠ .in_ := by cases h <;> nofun

theorem ne_out (h : Branch off i k c) : i ≠ .out := by cases h <;> nofun

/-- A branch pops its words, and then goes by the branch rule if its condition holds of them. -/
theorem body (h : Branch off i k c) {s : State} (hs : -1 ≤ s.sp ∧ s.sp ≤ s.cfg.stackCap - 1) :
    ∃ b u, (b = true ↔ c (s.operand 0) (s.operand 1)) ∧ coveredBody i s = branchIf b off u ∧
      s.Ends u s.pc (s.operands.drop k) (popReports k s.depth) := by
  cases h with
  | goto =>
    rw [popReports_zero]
    exact ⟨true, s, iff_of_true rfl trivial, rfl, Ends.refl s⟩
  | ifeq => exact ⟨_, _, by rw [pop_fst s hs.1, beq_iff_eq], rfl, ends_pop hs.1⟩
  | iflt =>
    refine ⟨_, _, ?_, rfl, ends_pop hs.1⟩
    rw [pop_fst s hs.1, BitVec.msb_eq_toInt, decide_eq_true_iff]
  | ifIcmpeq =>
    obtain ⟨hfst, hsnd, hops, hfin, -⟩ := two_pops s hs
    exact ⟨_, _, by rw [hfst, hsnd, beq_iff_eq], rfl, hops, hfin⟩

/-- The same from the state in which the body starts, alone or under WIDE. -/
theorem body_enter (h : Branch off i k c) {s : State} (hs : s.AtBoundary) (w : Bool) :
    ∃ b u, (b = true ↔ c (s.operand 0) (s.operand 1)) ∧
      coveredBody i (s.enter w) = branchIf b off u ∧
      (s.enter w).Ends u (ownOpcode s.pc w) (s.operands.drop k) (popReports k s.depth) := by
  obtain ⟨hlo, hhi, -⟩ := hs
  simpa only [enter_pc, enter_operand, enter_operands, enter_depth] using
    h.body (enter_legal ⟨hlo, hhi⟩ w)

/-- The body of a taken branch is the branch rule after its pops; the target counts from its own
opcode byte. -/
theorem taken_body (h : Branch off i k c) {s : State} (hs : s.AtBoundary) (w : Bool)
    (hc : c (s.operand 0) (s.operand 1)) :
    ∃ u, coveredBody i (s.enter w) = takeBranch off u ∧
      branchTarget u.pc off = branchTarget (ownOpcode s.pc w) off ∧ u.textSize = s.textSize ∧
      (s.enter w).Ends u (ownOpcode s.pc w) (s.operands.drop k) (popReports k s.depth) := by
  obtain ⟨b, u, hb, hbody, hends⟩ := h.body_enter hs w
  obtain rfl := hb.2 hc
  have hfin := hends.finishes
  exact ⟨u, hbody, by rw [hfin.pc_eq], by rw [hfin.textSize_eq, enter_textSize], hends⟩

/-- Taken, with the target inside the stream. -/
theorem exec_taken (h : Branch off i k c) {s : State} (hs : s.AtBoundary) (w : Bool)
    (hc : c (s.operand 0) (s.operand 1)) (hlo : 0 ≤ branchTarget (ownOpcode s.pc w) off)
    (hhi : branchTarget (ownOpcode s.pc w) off < s.textSize) :
    ∃ t, exec (i.aloneOrWide w) s = .next t ∧
      s.Ends t (branchTarget (ownOpcode s.pc w) off).toNat (s.operands.drop k)
        (popReports k s.depth) ∧ s.SameChannels t := by
  obtain ⟨u, hbody, htarget, hsize, hends⟩ := h.taken_body hs w hc
  obtain ⟨-, -, -, hw⟩ := hs
  rw [takeBranch_of_inside (by rwa [htarget]) (by rwa [htarget, hsize]), htarget] at hbody
  exact exec_ends_of_body h.keepsFormat h.ne_in h.ne_out hw hbody (hends.setPc _)

/-- Taken, with the target outside the stream: the pops are abandoned (R176). -/
theorem exec_wild (h : Branch off i k c) {s : State} (hs : s.AtBoundary) (w : Bool)
    (hc : c (s.operand 0) (s.operand 1))
    (hout : branchTarget (ownOpcode s.pc w) off < 0 ∨
      s.textSize ≤ branchTarget (ownOpcode s.pc w) off) :
    ∃ t, exec (i.aloneOrWide w) s = .next t ∧
      s.Raised t .branchTargetOutOfRange (branchTarget (ownOpcode s.pc w) off) := by
  obtain ⟨u, hbody, htarget, hsize, -⟩ := h.taken_body hs w hc
  rw [takeBranch_of_outside (by rwa [htarget, hsize]), htarget] at hbody
  exact ⟨_, exec_of_raised h.keepsFormat hbody, raised_raiseFault s _ _⟩

/-- Not taken: past the operand, with the target not looked at. -/
theorem exec_untaken (h : Branch off i k c) {s : State} (hs : s.AtBoundary) (w : Bool)
    (hc : ¬ c (s.operand 0) (s.operand 1)) :
    ∃ t, exec (i.aloneOrWide w) s = .next t ∧
      s.Ends t (ownOpcode s.pc w + 3) (s.operands.drop k) (popReports k s.depth) ∧
      s.SameChannels t := by
  obtain ⟨b, u, hb, hbody, hends⟩ := h.body_enter hs w
  obtain ⟨-, -, -, hw⟩ := hs
  obtain rfl := Bool.eq_false_iff.2 (mt hb.1 hc)
  exact exec_ends_of_body h.keepsFormat h.ne_in h.ne_out hw hbody (hends.advance 3)

end Branch

/-- Settles O32: the three conditional branches, each with its condition true. -/
theorem takenBranchesGoToTheirTarget : Obligations.TakenBranchesGoToTheirTarget :=
  fun _ w _ hs hlo hhi =>
    ⟨fun hc => Branch.ifeq.exec_taken hs w hc hlo hhi,
      fun hc => Branch.iflt.exec_taken hs w hc hlo hhi,
      fun hc => Branch.ifIcmpeq.exec_taken hs w hc hlo hhi⟩

/-- Settles O33: the three conditional branches, each with its condition false. -/
theorem untakenBranchesFallThrough : Obligations.UntakenBranchesFallThrough :=
  fun _ w off hs =>
    ⟨fun hc => (Branch.ifeq (off := off)).exec_untaken hs w hc,
      fun hc => (Branch.iflt (off := off)).exec_untaken hs w (not_lt.2 hc),
      fun hc => (Branch.ifIcmpeq (off := off)).exec_untaken hs w hc⟩

/-- Settles O34: a taken branch checks its target whatever it popped, and its fault abandons the
pops. -/
theorem wildTakenBranchesFault : Obligations.WildTakenBranchesFault := by
  rintro s w off hs target hout i (rfl | ⟨rfl, hc⟩ | ⟨rfl, hc⟩ | ⟨rfl, hc⟩)
  · exact Branch.goto.exec_wild hs w trivial hout
  · exact Branch.ifeq.exec_wild hs w hc hout
  · exact Branch.iflt.exec_wild hs w hc hout
  · exact Branch.ifIcmpeq.exec_wild hs w hc hout

/-- Settles O31: GOTO is the branch that pops nothing and is always taken. -/
theorem gotoGoesToItsTarget : Obligations.GotoGoesToItsTarget := by
  intro s w off hs hlo hhi
  have h := Branch.goto.exec_taken hs w trivial hlo hhi
  rwa [popReports_zero] at h

/-! ### HALT and ERR (R125, R126) -/

/-- What an ERR leaves is a terminal state and an error-terminal one (R90, R174). -/
theorem State.Ends.terminal_of_err {s t : State} {ops : List Word}
    (h : s.Ends t s.textSize ops [.err]) : t.terminal = true ∧ t.errorTerminal = true := by
  have hfin := h.finishes
  have hpc : t.textSize ≤ t.pc := by rw [hfin.textSize_eq, hfin.pc_eq]
  obtain ⟨-, ⟨-, hrep⟩, -⟩ := hfin
  have herr : t.reported .err = true := by rw [hrep]; exact Bool.or_true _
  exact ⟨terminal_iff.2 (.inl hpc), by rw [errorTerminal, herr, Bool.true_or]⟩

/-- Settles O35: HALT's body is the jump to the end of the stream, and ERR's reports ERR before it;
ERR has the shape of the instructions that store nothing. -/
theorem haltAndErrGoToTheEnd : Obligations.HaltAndErrGoToTheEnd := by
  rintro s w ⟨-, -, -, hw⟩
  constructor
  · have h := exec_of_done (i := .halt) (w := w) (s := s) rfl rfl
    rwa [enter_textSize, leave_setPc_enter hw] at h
  · have herr : (s.enter w).Ends ((s.enter w).report .err) (s.enter w).pc s.operands [.err] :=
      ⟨enter_operands w s, finishes_report (s.enter w) .err⟩
    have hend := herr.setPc s.textSize
    obtain ⟨t, hexec, hends, hchan⟩ := exec_ends_of_body (i := .err) rfl nofun nofun hw
      (by rw [← enter_textSize w s]; rfl) hend
    have hshape : (Instr.err.aloneOrWide w).storeShape = .nothing := by cases w <;> rfl
    exact ⟨t, hexec, hends, hchan, storelessInstructionsKeepEveryEntry s t _ hshape hexec,
      hends.terminal_of_err⟩

end Sys2Proof.Machine
end

section
/-! PROOFS. The family 45_locals_const.md. The bodies of LDC_W and of the three local instructions by
whether their index is in range, alone and under WIDE, and from these LDC_W, ILOAD, ISTORE, IINC and
their faults. -/

namespace Sys2Proof.Machine

open State

/-! ### An index in range and one out of range (R140, R145) -/

theorem ldcWBody_of_some {x : Half} {s : State} {c : Word} (h : s.queryConstant x.toNat = some c) :
    ldcWBody x s = .done ((s.push c).advance 3) := by
  rw [queryConstant] at h
  rw [ldcWBody, h]

theorem ldcWBody_of_outside {x : Half} {s : State} (h : s.cpCount ≤ x.toNat) :
    ldcWBody x s = .raised .constIndexOutOfRange x.toNat := by
  rw [ldcWBody, List.getElem?_eq_none h]

theorem withSlot_of_inside {n : Nat} {s : State} (h : s.lv + n < s.cfg.stackCap)
    (k : Nat → Result) : withSlot n s k = k (s.lv + n) := if_neg (not_le.2 h)

theorem withSlot_of_outside {n : Nat} {s : State} (h : s.cfg.stackCap ≤ s.lv + n)
    (k : Nat → Result) :
    withSlot n s k = .raised .localIndexOutOfRange (s.lv + n : Nat) := if_pos h

/-! ### The local instructions alone and under WIDE (R144) -/

theorem underWide_of_done {body : State → Result} {s t : State}
    (h : body ((s.setWide true).advance 1) = .done t) :
    underWide body s = .done (t.setWide false) := by rw [underWide, h]

theorem underWide_of_raised {body : State → Result} {s : State} {c : FaultCause} {info : Int}
    (h : body ((s.setWide true).advance 1) = .raised c info) :
    underWide body s = .raised c info := by rw [underWide, h]

/-- What `exec` runs for `i` is `body`, under a prefix byte if `w` (R80). -/
def RunsBody (i : Instr) (w : Bool) (body : State → Result) : Prop :=
  ∀ s, exec i s = finish s (if w then underWide body s else body s)

theorem runsBody_iload (v : Byte) : RunsBody (.iload v) false (loadLocal v.toNat 2) := fun _ => rfl

theorem runsBody_istore (v : Byte) : RunsBody (.istore v) false (storeLocal v.toNat 2) :=
  fun _ => rfl

theorem runsBody_iinc (v c : Byte) : RunsBody (.iinc v c) false (incLocal v.toNat c 3) :=
  fun _ => rfl

theorem runsBody_wideIload (v : Half) : RunsBody (.wideIload v) true (loadLocal v.toNat 3) :=
  fun _ => rfl

theorem runsBody_wideIstore (v : Half) : RunsBody (.wideIstore v) true (storeLocal v.toNat 3) :=
  fun _ => rfl

theorem runsBody_wideIinc (v : Half) (c : Byte) :
    RunsBody (.wideIinc v c) true (incLocal v.toNat c 4) := fun _ => rfl

section

variable {i : Instr} {w : Bool} {s : State}

theorem RunsBody.exec_of_done {body : State → Result} {t : State} (h : RunsBody i w body)
    (hb : body (s.enter w) = .done t) : exec i s = .next (t.leave w) := by
  rw [h s]
  cases w
  · exact congrArg (finish s) hb
  · exact congrArg (finish s) (underWide_of_done hb)

theorem RunsBody.exec_of_raised {body : State → Result} {c : FaultCause} {info : Int}
    (h : RunsBody i w body) (hb : body (s.enter w) = .raised c info) :
    exec i s = .next (s.raiseFault c info) := by
  rw [h s]
  cases w
  · exact congrArg (finish s) hb
  · exact congrArg (finish s) (underWide_of_raised hb)

/-- A local instruction whose slot is not one of the storage, whatever it does with a slot. -/
theorem RunsBody.raises_of_outside {n : Nat} {k : State → Nat → Result}
    (h : RunsBody i w fun u => withSlot n u (k u)) (hn : s.cfg.stackCap ≤ s.lv + n) :
    ∃ t, exec i s = .next t ∧ s.Raised t .localIndexOutOfRange (s.lv + n : Nat) := by
  have hb := withSlot_of_outside (s := s.enter w) (n := n) (by rwa [enter_cfg, enter_lv])
    (k (s.enter w))
  rw [enter_lv] at hb
  exact ⟨_, h.exec_of_raised hb, raised_raiseFault s _ _⟩

end

/-- Settles O40: the bound is checked before anything is pushed or popped, and the fault is the one
of the state before the prefix. -/
theorem indicesOutOfRangeFault : Obligations.IndicesOutOfRangeFault := by
  refine fun s c => ⟨fun w x hx => ?_, fun v hv i hi => ?_, fun v hv i hi => ?_⟩
  · have hb := ldcWBody_of_outside (s := s.enter w) (x := x) (by rwa [cpCount, enter_cp])
    exact ⟨_, exec_of_raised (i := .ldcW x) rfl hb, raised_raiseFault s _ _⟩
  · simp only [List.mem_cons, List.not_mem_nil, or_false] at hi
    obtain rfl | rfl | rfl := hi
    · exact (runsBody_iload v).raises_of_outside hv
    · exact (runsBody_istore v).raises_of_outside hv
    · exact (runsBody_iinc v c).raises_of_outside hv
  · simp only [List.mem_cons, List.not_mem_nil, or_false] at hi
    obtain rfl | rfl | rfl := hi
    · exact (runsBody_wideIload v).raises_of_outside hv
    · exact (runsBody_wideIstore v).raises_of_outside hv
    · exact (runsBody_wideIinc v c).raises_of_outside hv

/-! ### A word pushed from the pool or from a slot (R140, R141) -/

/-- One push and the advance, in the state in which the body starts. -/
theorem State.ends_push_enter {s : State} (hs : s.AtBoundary) (w : Bool) (v : Word) (len : Nat) :
    (s.enter w).Ends (((s.enter w).push v).advance len) (ownOpcode s.pc w + len)
      (pushOn s.cfg.stackCap v s.operands) (pushReports s.cfg.stackCap s.depth) := by
  obtain ⟨hlo, hhi, -⟩ := hs
  have h := ((Ends.refl (s.enter w)).push (enter_legal ⟨hlo, hhi⟩ w) v).advance len
  simpa only [enter_pc, enter_cfg, enter_operands, depth, List.nil_append] using h

/-- Settles O36: the body of an index in range is one push of its constant. -/
theorem ldcWPushesTheConstant : Obligations.LdcWPushesTheConstant := by
  intro s w x c hs hc
  have hb := ldcWBody_of_some (s := s.enter w) (x := x) (by rwa [queryConstant, enter_cp])
  have hends := ends_push_enter hs w c 3
  obtain ⟨-, -, -, hw⟩ := hs
  exact exec_ends_of_body (i := .ldcW x) rfl nofun nofun hw hb hends

/-- ILOAD of a slot of the storage: the slot is read in the state before the push. -/
theorem RunsBody.exec_loadLocal {i : Instr} {w : Bool} {n len : Nat}
    (h : RunsBody i w (loadLocal n len)) {s : State} (hs : s.AtBoundary)
    (hn : s.lv + n < s.cfg.stackCap) :
    ∃ t, exec i s = .next t ∧
      s.Ends t (ownOpcode s.pc w + len) (pushOn s.cfg.stackCap (s.entry (s.lv + n)) s.operands)
        (pushReports s.cfg.stackCap s.depth) ∧ s.SameChannels t := by
  have hb : loadLocal n len (s.enter w)
      = .done (((s.enter w).push (s.entry (s.lv + n))).advance len) := by
    rw [loadLocal, withSlot_of_inside (by rwa [enter_cfg, enter_lv]), enter_lv, enter_entry]
  have hends := ends_push_enter hs w (s.entry (s.lv + n)) len
  obtain ⟨-, -, -, hw⟩ := hs
  exact ⟨_, h.exec_of_done hb, hends.of_body hw,
    ((LocalBody.load n len).channelSafe _ _ hb).of_body⟩

/-- Settles O37: the narrow form is two bytes long, the wide one three after its prefix. -/
theorem iloadPushesTheLocal : Obligations.IloadPushesTheLocal :=
  fun _ hs => ⟨fun v hv => (runsBody_iload v).exec_loadLocal hs hv,
    fun v hv => (runsBody_wideIload v).exec_loadLocal hs hv⟩

/-! ### A word stored to a slot (R142, R143) -/

/-- Settles O51: a slot is the one entry that an instruction of this shape stores to. -/
theorem localStoresStoreToTheirSlot : Obligations.LocalStoresStoreToTheirSlot := by
  intro s t i v hshape h
  have hframe := exec_sameEntriesBut h
  rwa [hshape] at hframe

/-- A byte extended to a word keeps its signed value (R6). -/
theorem toInt_sext8 (b : Byte) : (sext8 b).toInt = b.toInt :=
  BitVec.toInt_signExtend_of_le (by decide)

/-- A word narrowed and extended again has the value of its low byte (R142). -/
theorem toInt_narrow (v : Word) : (narrow v).toInt = (lowByte v).toInt := toInt_sext8 (lowByte v)

/-- The increment added modulo 2^32 is the sum in integers taken as a word (R143, D18). -/
theorem ofInt_toInt_add_toInt_byte (a : Word) (c : Byte) :
    BitVec.ofInt 32 (a.toInt + c.toInt) = a + sext8 c := by
  rw [← toInt_sext8, ofInt_toInt_add_toInt]

/-- ISTORE to a slot of the storage: one pop, then the store. -/
theorem RunsBody.exec_storeLocal {i : Instr} {w : Bool} {n len : Nat}
    (h : RunsBody i w (storeLocal n len)) (hshape : i.storeShape = .slot n) {s : State}
    (hs : s.AtBoundary) (hn : s.lv + n < s.cfg.stackCap) :
    ∃ t, exec i s = .next t ∧
      s.Finishes t (ownOpcode s.pc w + len) (popReports 1 s.depth) ∧
      t.sp = max (s.sp - 1) (-1) ∧
      (t.entry (s.lv + n)).toInt = (lowByte (s.operand 0)).toInt ∧
      s.SameEntriesBut t [s.lv + n] ∧ s.SameChannels t := by
  obtain ⟨hlo, hhi, -, hw⟩ := hs
  obtain ⟨hlo', -⟩ := enter_legal ⟨hlo, hhi⟩ w
  have hb : storeLocal n len (s.enter w)
      = .done (((s.enter w).pop.2.setEntry (s.lv + n) (narrow (s.operand 0))).advance len) := by
    rw [storeLocal, withSlot_of_inside (by rwa [enter_cfg, enter_lv]), enter_lv, pop_fst _ hlo',
      enter_operand]
  have hfin := ((finishes_pop (s.enter w) hlo').setEntry (s.lv + n)
    (narrow (s.operand 0))).advance len
  rw [enter_pc, enter_depth] at hfin
  have hexec := h.exec_of_done hb
  refine ⟨_, hexec, hfin.of_body hw, ?_, ?_, localStoresStoreToTheirSlot s _ i n hshape hexec,
    ((LocalBody.store n len).channelSafe _ _ hb).of_body⟩
  · rw [leave_sp, advance_sp, setEntry_sp, pop_sp, enter_sp]
    split <;> omega
  · rw [leave_entry, advance_entry, setEntry_entry_self, toInt_narrow]

/-- Settles O38: the narrow form is two bytes long, the wide one three after its prefix. -/
theorem istoreStoresTheNarrowedWord : Obligations.IstoreStoresTheNarrowedWord :=
  fun _ hs => ⟨fun v hv => (runsBody_istore v).exec_storeLocal rfl hs hv,
    fun v hv => (runsBody_wideIstore v).exec_storeLocal rfl hs hv⟩

/-- IINC of a slot of the storage: one store and nothing else. -/
theorem RunsBody.exec_incLocal {i : Instr} {w : Bool} {n len : Nat} {c : Byte}
    (h : RunsBody i w (incLocal n c len)) (hshape : i.storeShape = .slot n) {s : State}
    (hs : s.AtBoundary) (hn : s.lv + n < s.cfg.stackCap) :
    ∃ t, exec i s = .next t ∧ s.Finishes t (ownOpcode s.pc w + len) [] ∧ t.sp = s.sp ∧
      t.entry (s.lv + n) = BitVec.ofInt 32 ((s.entry (s.lv + n)).toInt + c.toInt) ∧
      s.SameEntriesBut t [s.lv + n] ∧ s.SameChannels t := by
  obtain ⟨-, -, -, hw⟩ := hs
  have hb : incLocal n c len (s.enter w)
      = .done (((s.enter w).setEntry (s.lv + n) (s.entry (s.lv + n) + sext8 c)).advance len) := by
    rw [incLocal, withSlot_of_inside (by rwa [enter_cfg, enter_lv]), enter_lv, enter_entry]
  have hfin := ((Finishes.refl (s.enter w)).setEntry (s.lv + n)
    (s.entry (s.lv + n) + sext8 c)).advance len
  rw [enter_pc] at hfin
  have hexec := h.exec_of_done hb
  refine ⟨_, hexec, hfin.of_body hw, ?_, ?_, localStoresStoreToTheirSlot s _ i n hshape hexec,
    ((LocalBody.inc n c len).channelSafe _ _ hb).of_body⟩
  · rw [leave_sp, advance_sp, setEntry_sp, enter_sp]
  · rw [leave_entry, advance_entry, setEntry_entry_self, ofInt_toInt_add_toInt_byte]

/-- Settles O39: the narrow form is three bytes long, the wide one four after its prefix. -/
theorem iincAddsInPlace : Obligations.IincAddsInPlace :=
  fun _ c hs => ⟨fun v hv => (runsBody_iinc v c).exec_incLocal rfl hs hv,
    fun v hv => (runsBody_wideIinc v c).exec_incLocal rfl hs hv⟩

end Sys2Proof.Machine
end

section
/-! PROOFS. The family 46_io.md. The body of IN by what the input source answers, how the operand
stack goes on past the moves of the byte channels, which entries IN stores to, and from these IN and
OUT, alone and under WIDE. -/

namespace Sys2Proof.Machine

open State

/-! ### The body of IN by what the source answers (R161, R163) -/

section

variable {s : State}

theorem inBody_of_byte {c : Byte} {rest : List Byte} (h : s.input = c :: rest) :
    inBody s = .done (((s.setInput rest).push (zext8 c)).advance 1) := by
  rw [inBody, inRead, h]

theorem inBody_of_end (h : s.input = []) (hclosed : s.inputClosed = true) :
    inBody s = .done (((s.push s.cfg.eofSentinel).push 0).advance 1) := by
  rw [inBody, inRead, h, hclosed]
  rfl

theorem inBody_of_open (h : s.input = []) (hopen : s.inputClosed = false) : inBody s = .held := by
  rw [inBody, inRead, h, hopen]
  rfl

end

/-! ### The operand stack past the moves of the byte channels -/

section

variable {s t : State} {p : Nat} {ops : List Word} {ds : List Diagnostic}

theorem State.Ends.setInput (h : s.Ends t p ops ds) (l : List Byte) :
    s.Ends (t.setInput l) p ops ds := by
  obtain ⟨hops, hfin⟩ := h
  exact ⟨hops, hfin.setInput l⟩

theorem State.Ends.outWrite (h : s.Ends t p ops ds) (b : Byte) :
    s.Ends (t.outWrite b) p ops ds := by
  obtain ⟨hops, hfin⟩ := h
  exact ⟨hops, hfin.outWrite b⟩

end

/-! ### IN at end of input and with a byte waiting (R163) -/

/-- Settles O42: the body is two pushes, the second on the stack that the first has left. -/
theorem inAtTheEndPushesSentinelAndZero : Obligations.InAtTheEndPushesSentinelAndZero := by
  rintro s w ⟨hlo, hhi, -, hw⟩ hin hclosed once
  have hb : coveredBody .in_ (s.enter w) = _ :=
    inBody_of_end (by rwa [enter_input]) (by rwa [enter_inputClosed])
  have hlegal := enter_legal ⟨hlo, hhi⟩ w
  have hends := (((Ends.refl (s.enter w)).push hlegal (s.enter w).cfg.eofSentinel).push
    (push_legal _ _ hlegal) 0).advance 1
  simp only [enter_pc, enter_cfg, enter_operands, List.nil_append] at hends
  rw [enter_cfg] at hb
  exact ⟨_, exec_of_done (i := .in_) rfl hb, hends.of_body hw, by simp [SameChannels]⟩

/-- Settles O41: the byte is taken from the input and pushed, and its zero extension is the word of
its unsigned value. -/
theorem inPushesTheNextByte : Obligations.InPushesTheNextByte := by
  rintro s w c rest ⟨hlo, hhi, -, hw⟩ hin
  have hb : coveredBody .in_ (s.enter w) = _ := inBody_of_byte (by rwa [enter_input])
  have hends := (((Ends.refl (s.enter w)).setInput rest).push (enter_legal ⟨hlo, hhi⟩ w)
    (zext8 c)).advance 1
  simp only [enter_pc, enter_cfg, enter_operands, List.nil_append] at hends
  rw [BitVec.ofNat_toNat]
  exact ⟨_, exec_of_done (i := .in_) rfl hb, hends.of_body hw, by simp, by simp, by simp⟩

/-! ### When IN is held, and what lifts the hold (R161, U16) -/

/-- An instruction whose body waits for input is held. -/
theorem exec_of_held {i : Instr} {w : Bool} {s : State} (h : i.keepsFormat = true)
    (hb : coveredBody i (s.enter w) = .held) :
    exec (i.aloneOrWide w) s = .fault .heldForInput := by
  rw [exec_aloneOrWide h, hb]

theorem exec_in_held_iff (w : Bool) (s : State) :
    exec (Instr.in_.aloneOrWide w) s = .fault .heldForInput ↔
      s.input = [] ∧ s.inputClosed = false := by
  constructor
  · intro h
    obtain ⟨t, ht⟩ | ⟨-, hwaits⟩ := exec_in_next_or_held w s
    · rw [ht] at h
      cases h
    · exact hwaits
  · rintro ⟨hin, hopen⟩
    exact exec_of_held (i := .in_) rfl
      (inBody_of_open (by rwa [enter_input]) (by rwa [enter_inputClosed]))

/-- IN completes once a byte waits or the source is closed. -/
theorem exec_in_next_of_answer (w : Bool) {s : State}
    (h : s.input ≠ [] ∨ s.inputClosed = true) :
    ∃ t, exec (Instr.in_.aloneOrWide w) s = .next t := by
  obtain hnext | ⟨-, hin, hopen⟩ := exec_in_next_or_held w s
  · exact hnext
  · simp [hin, hopen] at h

/-- A byte that arrives at an open source waits behind those that wait already. -/
theorem State.byteArrives_of_open {s : State} (h : s.inputClosed = false) (c : Byte) :
    s.byteArrives c = s.setInput (s.input ++ [c]) := by
  rw [byteArrives, h]
  rfl

@[simp] theorem State.closeInput_inputClosed (s : State) : s.closeInput.inputClosed = true := rfl

/-- Settles O43: IN is held exactly in the third case of `InRead()`, and both moves of the
environment lead out of it. -/
theorem inIsHeldUntilTheSourceAnswers : Obligations.InIsHeldUntilTheSourceAnswers := by
  refine fun s w => ⟨exec_in_held_iff w s, fun c hopen => ?_, ?_⟩
  · exact exec_in_next_of_answer w (.inl (by simp [byteArrives_of_open hopen]))
  · exact exec_in_next_of_answer w (.inr s.closeInput_inputClosed)

/-! ### Which entries IN stores to (R33, R163) -/

section

variable {cap : Nat} {sp : Int}

theorem pushedEntries_one (h : sp ≤ cap - 1) :
    pushedEntries cap sp 1 = if sp < cap - 1 then [(sp + 1).toNat] else [] := by
  by_cases hf : sp = cap - 1
  · rw [pushedEntries_of_full hf, if_neg (by omega)]
  · rw [pushedEntries_of_room hf, if_pos (by omega)]
    rfl

/-- The second push stores where there is room for two words. -/
theorem pushedEntries_two (h : sp ≤ cap - 1) :
    pushedEntries cap sp 2 =
      pushedEntries cap sp 1 ++ if sp < cap - 2 then [(sp + 2).toNat] else [] := by
  by_cases hf : sp = cap - 1
  · rw [pushedEntries_of_full hf, pushedEntries_of_full hf, if_neg (by omega)]
    rfl
  · have hroom : sp + 1 < (cap : Int) - 1 ↔ sp < cap - 2 := by omega
    rw [pushedEntries_of_room hf, pushedEntries_of_room hf, pushedEntries_one (by omega)]
    simp only [hroom, add_assoc]
    rfl

end

/-- Settles O50: the frame of IN's shape, one push for a byte and two at end of input. -/
theorem inStoresAboveTheTop : Obligations.InStoresAboveTheTop := by
  rintro s t i ⟨-, hhi, -⟩ hi h
  have hframe := exec_sameEntriesBut h
  rw [hi, storedEntries] at hframe
  rw [← pushedEntries_one hhi]
  by_cases hin : s.input = []
  · simpa only [hin, if_true, true_and, pushedEntries_two hhi] using hframe
  · simpa only [hin, if_false, false_and, List.append_nil] using hframe

/-! ### OUT (R164) -/

/-- Settles O44: one pop, whose word on an empty stack is 0, and its low byte written. -/
theorem outWritesTheLowByte : Obligations.OutWritesTheLowByte := by
  rintro s w ⟨hlo, hhi, -, hw⟩
  obtain ⟨hlo', -⟩ := enter_legal ⟨hlo, hhi⟩ w
  have hends := ((ends_pop hlo').outWrite (lowByte (s.enter w).pop.1)).advance 1
  simp only [enter_pc, enter_operands, enter_depth] at hends
  have hbyte : lowByte (s.enter w).pop.1 = BitVec.ofNat 8 (s.operand 0).toNat := by
    rw [pop_fst _ hlo', enter_operand, BitVec.ofNat_toNat, lowByte]
  exact ⟨_, exec_of_done (i := .out) rfl rfl, hends.of_body hw, by simp, by simp, by simp [hbyte]⟩

end Sys2Proof.Machine
end

section
/-! PROOFS. The family 60_exceptions.md. What a raised fault leaves, which faults each body can
raise, when SWAP reports OVF, and what the fault register and the byte at `pc` say of where the
machine stands. -/

namespace Sys2Proof.Machine

open State

/-! ### A raised fault (R176) -/

/-- Settles O15: a body that runs to its end keeps the fault register, so the fault is a raised one. -/
theorem raisedFaultsArePrecise : Obligations.RaisedFaultsArePrecise := by
  intro s t f hf h ht
  obtain ⟨c, info, rfl⟩ | ⟨-, -, -, ⟨-, -, -, hkept, -⟩, -⟩ := step_next_cases h
  · cases ht
    exact ⟨rfl, raised_raiseFault s c info⟩
  · rw [hkept, beginStep_fault, hf] at ht
    cases ht

/-! ### What each instruction can raise (R175) -/

/-- A body raises no fault but one with a cause of `cs`. -/
def RaisesOnly (cs : List FaultCause) (r : Result) : Prop :=
  ∀ c info, r = .raised c info → c ∈ cs

section

variable {cs : List FaultCause}

theorem raisesOnly_done (t : State) : RaisesOnly cs (.done t) := by
  rintro c info ⟨⟩

theorem raisesOnly_raised {c : FaultCause} (h : c ∈ cs) (info : Int) :
    RaisesOnly cs (.raised c info) := by
  rintro _ _ ⟨⟩
  exact h

theorem raisesOnly_branchIf (c : Bool) (off : Half) (s : State) :
    RaisesOnly [.branchTargetOutOfRange] (branchIf c off s) := by
  obtain ⟨-, h⟩ | ⟨-, h⟩ := branchIf_cases c off s <;> rw [h]
  · obtain ⟨-, h⟩ | ⟨-, -, h⟩ := takeBranch_cases off s <;> rw [h]
    · exact raisesOnly_raised (.head _) _
    · exact raisesOnly_done _
  · exact raisesOnly_done _

theorem raisesOnly_ldcWBody (x : Half) (s : State) :
    RaisesOnly [.constIndexOutOfRange] (ldcWBody x s) := by
  unfold ldcWBody
  split
  · exact raisesOnly_done _
  · exact raisesOnly_raised (.head _) _

theorem raisesOnly_inBody (s : State) : RaisesOnly cs (inBody s) := by
  unfold inBody
  obtain ⟨c, r, -, h⟩ | ⟨-, -, h⟩ | ⟨-, -, h⟩ := inRead_cases s <;> rw [h]
  · exact raisesOnly_done _
  · exact raisesOnly_done _
  · rintro c info ⟨⟩

theorem raisesOnly_withSlot {n : Nat} {s : State} {k : Nat → Result}
    (hk : ∀ e, RaisesOnly [.localIndexOutOfRange] (k e)) :
    RaisesOnly [.localIndexOutOfRange] (withSlot n s k) := by
  obtain ⟨-, h⟩ | ⟨-, h⟩ := withSlot_cases n s k <;> rw [h]
  · exact raisesOnly_raised (.head _) _
  · exact hk _

theorem LocalBody.raisesOnly {body : State → Result} (h : LocalBody body) (s : State) :
    RaisesOnly [.localIndexOutOfRange] (body s) := by
  cases h <;> exact raisesOnly_withSlot fun _ => raisesOnly_done _

/-- Every body that WIDE can cover. -/
theorem raisesOnly_coveredBody (i : Instr) (s : State) : RaisesOnly i.mayRaise (coveredBody i s) := by
  cases i with
  | ldcW x => exact raisesOnly_ldcWBody x s
  | ifeq off | iflt off | ifIcmpeq off => exact raisesOnly_branchIf _ off _
  | goto off => exact raisesOnly_branchIf true off s
  | in_ => exact raisesOnly_inBody s
  | iload _ | istore _ | iinc _ _ | wide _ | wideIload _ | wideIstore _ | wideIinc _ _ | wideWide =>
    rintro c info ⟨⟩
  | _ => exact raisesOnly_done _

/-- WIDE raises no fault of its own. -/
theorem raisesOnly_underWide {body : State → Result} (hb : ∀ u, RaisesOnly cs (body u)) (s : State) :
    RaisesOnly cs (underWide body s) := by
  have h := hb ((s.setWide true).advance 1)
  unfold underWide
  generalize body ((s.setWide true).advance 1) = r at h
  cases r with
  | raised c info => exact h
  | done t => exact raisesOnly_done _
  | held | illFormed => rintro c info ⟨⟩

theorem raisesOnly_wholeBody (i : Instr) (s : State) : RaisesOnly i.mayRaise (wholeBody i s) := by
  by_cases hk : i.keepsFormat = true
  · rw [wholeBody_of_keepsFormat hk]
    exact raisesOnly_coveredBody i s
  cases i with
  | iload v => exact (LocalBody.load _ 2).raisesOnly s
  | istore v => exact (LocalBody.store _ 2).raisesOnly s
  | iinc v c => exact (LocalBody.inc _ c 3).raisesOnly s
  | wide c => exact raisesOnly_underWide (raisesOnly_coveredBody c) s
  | wideIload v => exact raisesOnly_underWide (LocalBody.load _ 3).raisesOnly s
  | wideIstore v => exact raisesOnly_underWide (LocalBody.store _ 3).raisesOnly s
  | wideIinc v c => exact raisesOnly_underWide (LocalBody.inc _ c 4).raisesOnly s
  | wideWide => exact raisesOnly_raised (.head _) _
  | _ => exact absurd rfl hk

end

/-- A fault that an instruction leaves is one its body raised. -/
theorem exec_fault_mem_mayRaise {i : Instr} {s t : State} {f : FaultRecord} (hf : s.fault = none)
    (h : exec i s = .next t) (ht : t.fault = some f) : f.cause ∈ i.mayRaise := by
  rw [exec_eq_wholeBody] at h
  obtain hb | ⟨c, info, hb, rfl⟩ := finish_next h
  · obtain ⟨⟨-, -, -, hkept, -⟩, -⟩ := wholeBody_sound i s t hb
    rw [hkept, hf] at ht
    cases ht
  · cases ht
    exact raisesOnly_wholeBody i s c info hb

/-! ### When SWAP reports OVF (R172) -/

/-- With two entries or more, the two pops leave room for both pushes. -/
theorem reportsOnly_swapBody {s : State} (h : -1 ≤ s.sp ∧ s.sp ≤ s.cfg.stackCap - 1)
    (hcap : 2 ≤ s.cfg.stackCap) : ReportsOnly [.unf] s (swapBody s) := by
  obtain ⟨-, -, -, -, -, hsp⟩ := two_pops s h
  have hroom := room_after_two_pops h (by omega)
  refine reportsOnly_advance (((reportsWithin_two_pops (.head _) s).trans
    (reportsWithin_push_of_room hroom _)).trans (reportsWithin_push_of_room ?_ _)) 1
  rw [push_sp, if_neg hroom, hsp, push_cfg, pop_cfg, pop_cfg]
  omega

/-- WIDE covers no second WIDE, so that SWAP alone has the shape of its stores. -/
theorem eq_swap_of_storeShape {i : Instr} {s t : State} (h : exec i s = .next t)
    (hi : i.storeShape = .swap) : i = .swap ∨ i = .wide .swap := by
  cases i with
  | swap => exact .inl rfl
  | wide c =>
    cases c with
    | swap => exact .inr rfl
    | wide _ => cases h
    | _ => cases hi
  | _ => cases hi

theorem reportsOnly_swap {i : Instr} (hi : i = .swap ∨ i = .wide .swap) {s : State}
    (h : -1 ≤ s.sp ∧ s.sp ≤ s.cfg.stackCap - 1) (hcap : 2 ≤ s.cfg.stackCap) :
    ReportsOnly [.unf] s (wholeBody i s) := by
  obtain rfl | rfl := hi
  · exact reportsOnly_swapBody h hcap
  · exact reportsOnly_underWide (reportsOnly_swapBody (s := s.enter true) h hcap)

/-- A new OVF of SWAP means that the storage has one entry. -/
theorem stackCap_eq_one_of_swap_ovf {i : Instr} {s t : State} (hs : s.AtBoundary)
    (h : exec i s = .next t) (hi : i.storeShape = .swap) (hovf : .ovf ∈ t.events)
    (hnew : .ovf ∉ s.events) : s.cfg.stackCap = 1 := by
  obtain ⟨hlo, hhi, hcap, -⟩ := hs
  obtain ⟨c, info, rfl⟩ | ⟨hb, -⟩ := exec_next h
  · cases hovf
  · by_contra hne
    have hwithin := reportsOnly_swap (eq_swap_of_storeShape h hi) ⟨hlo, hhi⟩ (by omega) t hb
    have hunf := (hwithin .ovf hovf).resolve_left hnew
    exact absurd hunf (by decide)

/-- Settles O18: the reports are those of the table of R172, SWAP's OVF only where two pops leave no
room for two pushes; the faults are those that the body raises. -/
theorem onlyTheListedReportsAndFaultsHappen : Obligations.OnlyTheListedReportsAndFaultsHappen := by
  intro s t i h
  refine ⟨fun hs d hd => ?_, fun hf f ht => exec_fault_mem_mayRaise hf h ht⟩
  by_cases hold : d ∈ s.events
  · exact .inl hold
  · refine .inr ⟨(exec_reportsWithin hs h d hd).resolve_left hold, ?_⟩
    rintro hi rfl
    exact stackCap_eq_one_of_swap_ovf hs h hi hd hold

/-! ### A written fault register (R177) -/

theorem runStops_eq_faulted {s : State} (hf : s.fault ≠ none) : runStops s = some (.faulted s) := by
  simp [runStops, Option.isSome_iff_ne_none, hf]

/-- Settles O8: the step, the status and the run loop look at the fault register first. -/
theorem faultedMachineTakesNoStep : Obligations.FaultedMachineTakesNoStep := by
  intro s hf
  obtain ⟨f, hsome⟩ := Option.ne_none_iff_exists'.1 hf
  exact ⟨by simp [step, hsome], by simp [status, hsome],
    runLoop_of_runStops (runStops_eq_faulted hf)⟩

/-! ### The halt cause (R174) -/

/-- There is a byte at `pc` where it stands on an opcode. -/
theorem State.pc_lt_of_standsOn {s : State} {o : Opcode} (h : s.standsOn o = true) :
    s.pc < s.textSize :=
  (List.getElem?_eq_some_iff.1 (standsOn_iff.1 h)).1

/-- Settles O58: the places where the machine can stand exclude one another, HALT and ERR because
their bytes differ, and the end because it has no byte. -/
theorem haltCauseTellsWhereItStands : Obligations.HaltCauseTellsWhereItStands := by
  intro s hd
  refine ⟨fun f hf => by simp [haltCause, hf], fun hf => ?_⟩
  change (_ ↔ s.text[s.pc]? = some (s.cfg.opc.byteOf .err)) ∧
    (_ ↔ s.text[s.pc]? = some (s.cfg.opc.byteOf .halt)) ∧ _
  rw [← standsOn_iff, ← standsOn_iff, status_eq_running_iff hf, terminal_iff]
  by_cases herr : s.standsOn .err = true
  · have hhalt : s.standsOn .halt = false := standsOn_of_ne hd herr (by decide)
    simp [haltCause, hf, herr, hhalt, pc_lt_of_standsOn herr]
  by_cases hhalt : s.standsOn .halt = true
  · simp [haltCause, hf, herr, hhalt, pc_lt_of_standsOn hhalt]
  by_cases hend : s.textSize ≤ s.pc
  · cases hr : s.reported .err <;> simp [haltCause, hf, herr, hhalt, hend, hr]
  · simp [haltCause, hf, herr, hhalt, hend]

end Sys2Proof.Machine
end

section
/-! PROOFS. The family 70_reset_and_hazards.md. What each field of an image reads back as, where a cut
in it stops the load, and the two statements about booting from the bytes of an image. -/

namespace Sys2Proof.Machine

open State

/-! ### The codec of a word and of a constant pool (R34, R204, R206) -/

@[simp] theorem length_bytesOf (w : Word) : (bytesOf w).length = 4 := rfl

@[simp] theorem word_bytesOf (w : Word) :
    word (w.extractLsb' 24 8) (w.extractLsb' 16 8) (w.extractLsb' 8 8) (w.extractLsb' 0 8) = w := by
  rw [word, BitVec.extractLsb'_append_extractLsb'_eq_extractLsb' (show 24 = 16 + 8 from rfl),
    BitVec.extractLsb'_append_extractLsb'_eq_extractLsb' (show 16 = 8 + 8 from rfl),
    BitVec.extractLsb'_append_extractLsb'_eq_extractLsb' (show 8 = 0 + 8 from rfl)]
  exact BitVec.extractLsb'_eq_self

@[simp] theorem wordsOf_bytesOf_append (w : Word) (rest : List Byte) :
    wordsOf (bytesOf w ++ rest) = w :: wordsOf rest := by
  simp [bytesOf, wordsOf]

theorem wordsOf_flatMap_bytesOf (ws : List Word) : wordsOf (ws.flatMap bytesOf) = ws := by
  induction ws with
  | nil => rfl
  | cons w ws ih => rw [List.flatMap_cons, wordsOf_bytesOf_append, ih]

theorem length_flatMap_bytesOf (ws : List Word) : (ws.flatMap bytesOf).length = 4 * ws.length := by
  simp [List.length_flatMap, Nat.mul_comm]

/-! ### Reading exactly the bytes of a field -/

/-- `read` wants exactly the bytes `front`: it answers `v rest` where they stand before any `rest`, and
finds the source too short where it ends inside them. -/
def ReadsExactly {α : Type} (read : List Byte → Except LoadError α) (front : List Byte)
    (v : List Byte → α) : Prop :=
  (∀ rest, read (front ++ rest) = .ok (v rest)) ∧
    ∀ n, n < front.length → read (front.take n) = .error .tooShort

/-- Two fields in a row: a cut is inside the first one or leaves it whole. -/
theorem ReadsExactly.bind {α β : Type} {read : List Byte → Except LoadError (α × List Byte)}
    {k : α × List Byte → Except LoadError β} {f front : List Byte} {a : α} {v : List Byte → β}
    (hf : ReadsExactly read f (a, ·)) (hk : ReadsExactly (fun r => k (a, r)) front v) :
    ReadsExactly (fun l => read l >>= k) (f ++ front) v := by
  obtain ⟨hread, hshort⟩ := hf
  obtain ⟨hread', hshort'⟩ := hk
  refine ⟨fun rest => ?_, fun n hn => ?_⟩
  · rw [List.append_assoc]
    exact (congrArg (· >>= k) (hread _)).trans (hread' rest)
  · by_cases hin : n < f.length
    · rw [List.take_append_of_le_length hin.le]
      exact congrArg (· >>= k) (hshort n hin)
    · rw [List.take_append, List.take_of_length_le (Nat.not_lt.1 hin)]
      rw [List.length_append] at hn
      exact (congrArg (· >>= k) (hread _)).trans (hshort' _ (by omega))

/-- What the answer is turned into does not change what is read. -/
theorem ReadsExactly.map {α β : Type} {read : List Byte → Except LoadError α} {f : List Byte}
    {v : List Byte → α} (h : ReadsExactly read f v) (g : α → β) :
    ReadsExactly (fun l => read l >>= fun x => pure (g x)) f (fun rest => g (v rest)) :=
  ⟨fun rest => congrArg (· >>= fun x => pure (g x)) (h.1 rest),
    fun n hn => congrArg (· >>= fun x => pure (g x)) (h.2 n hn)⟩

theorem takeWord_short {l : List Byte} (h : l.length < 4) : takeWord l = .error .tooShort := by
  match l, h with
  | [], _ | [_], _ | [_, _], _ | [_, _, _], _ => rfl

theorem takeWord_readsExactly (w : Word) : ReadsExactly takeWord (bytesOf w) (w, ·) := by
  refine ⟨fun rest => by simp [bytesOf, takeWord], fun n hn => takeWord_short ?_⟩
  rw [length_bytesOf] at hn
  rw [List.length_take]
  omega

theorem takeBytes_readsExactly {n : Nat} {l : List Byte} (h : l.length = n) :
    ReadsExactly (takeBytes n) l (l, ·) := by
  subst h
  refine ⟨fun rest => by simp [takeBytes], fun n hn => ?_⟩
  simp [takeBytes, hn]

/-! ### The image and boot (R200, R203 to R209) -/

section WithLengthsThatFit
variable {img : Image} (hcp : 4 * img.cp.length < 2 ^ 32) (htext : img.text.length < 2 ^ 32)
include hcp htext

theorem loadBody_readsExactly (o1 o2 : Word) :
    ReadsExactly loadBody
      (bytesOf o1 ++ (bytesOf (BitVec.ofNat 32 (4 * img.cp.length)) ++ (img.cp.flatMap bytesOf ++
        (bytesOf o2 ++ (bytesOf (BitVec.ofNat 32 img.text.length) ++ img.text)))))
      (fun _ => img) := by
  have hpool : (img.cp.flatMap bytesOf).length
      = (BitVec.ofNat 32 (4 * img.cp.length) : Word).toNat := by
    rw [length_flatMap_bytesOf, BitVec.toNat_ofNat, Nat.mod_eq_of_lt hcp]
  have hstream : img.text.length = (BitVec.ofNat 32 img.text.length : Word).toNat := by
    rw [BitVec.toNat_ofNat, Nat.mod_eq_of_lt htext]
  have himg : (⟨img.text, wordsOf (img.cp.flatMap bytesOf)⟩ : Image) = img := by
    rw [wordsOf_flatMap_bytesOf]
  refine (takeWord_readsExactly o1).bind ?_
  refine (takeWord_readsExactly _).bind ?_
  refine (takeBytes_readsExactly hpool).bind ?_
  refine (takeWord_readsExactly o2).bind ?_
  refine (takeWord_readsExactly _).bind ?_
  have hlast := (takeBytes_readsExactly hstream).map
    fun x => (⟨x.1, wordsOf (img.cp.flatMap bytesOf)⟩ : Image)
  simp only [himg] at hlast
  exact hlast

theorem loadImage_readsExactly (magic o1 o2 : Word) :
    ReadsExactly (loadImage magic) (imageBytes magic o1 o2 img) (fun _ => img) := by
  simp only [imageBytes, List.append_assoc]
  refine (takeWord_readsExactly magic).bind ?_
  simpa using loadBody_readsExactly hcp htext o1 o2

theorem boot_readsExactly (cfg : Config) (o1 o2 : Word) (m : Memory) (input : List Byte)
    (closed : Bool) :
    ReadsExactly (fun bytes => boot cfg bytes m input closed) (imageBytes cfg.magic o1 o2 img)
      (fun _ => resetWith cfg img m input closed) :=
  (loadImage_readsExactly hcp htext cfg.magic o1 o2).map
    fun img => resetWith cfg img m input closed

end WithLengthsThatFit

theorem length_imageBytes (magic o1 o2 : Word) (img : Image) :
    (imageBytes magic o1 o2 img).length = 20 + 4 * img.cp.length + img.text.length := by
  simp only [imageBytes, List.length_append, length_bytesOf, length_flatMap_bytesOf]
  omega

theorem boot_badMagic {cfg : Config} {a b c d : Byte} (h : word a b c d ≠ cfg.magic)
    (bytes : List Byte) (m : Memory) (input : List Byte) (closed : Bool) :
    boot cfg (a :: b :: c :: d :: bytes) m input closed = .error .badMagic := by
  have hload : loadImage cfg.magic (a :: b :: c :: d :: bytes) = .error .badMagic := if_neg h
  rw [boot, hload]
  rfl

/-- Settles O59: `boot` reads exactly the bytes of the image, and the queries answer the fields that
reset fills from it. -/
theorem loadReadsBackTheImage : Obligations.LoadReadsBackTheImage := by
  intro cfg o1 o2 img extra m input closed hcp htext
  obtain ⟨hread, -⟩ := boot_readsExactly hcp htext cfg o1 o2 m input closed
  exact ⟨_, hread extra, rfl, rfl, fun _ => rfl⟩

/-- Settles O60: the magic number is compared before anything else is read, and `boot` wants every byte
of the image. -/
theorem badImagesLeaveNoState : Obligations.BadImagesLeaveNoState := by
  intro cfg o1 o2 img bytes m input closed
  refine ⟨fun a b c d h => boot_badMagic h bytes m input closed, fun n hcp htext hn => ?_⟩
  obtain ⟨-, hshort⟩ := boot_readsExactly hcp htext cfg o1 o2 m input closed
  exact hshort n (by rwa [length_imageBytes])

end Sys2Proof.Machine
end
